-- ==== Sys2Proof/Word.lean ====
section
/-! DEFINITION. The word types of the machine (spec/00_scope.md R6, R8, R9). -/

namespace Sys2Proof

/-- An 8-bit value: a memory byte, a general register or a timer (R6). -/
abbrev Byte := BitVec 8

/-- A 16-bit value: an instruction word, the program counter, the index register or a return
address (R6). -/
abbrev Word := BitVec 16

/-- The index of a general register, V0 to VF (R6, R21, R73). -/
abbrev Reg := Fin 16

/-- VF, the register that doubles as the flag register (R22). -/
abbrev VF : Reg := 15

end Sys2Proof
end

