-- ==== Sys2Proof/Syntax.lean ====
section
/-! DEFINITION. The instructions of the core, one constructor per row of spec/opcode_table.json
(spec/30_encoding.md R80), with the operands of R72 and R73. -/

namespace Sys2Proof

/-- An instruction. Operands (R72, R73): `x` and `y` are register indices, `nn` an 8-bit immediate,
`nnn` a 12-bit address held zero-extended at 16 bits, `n` a sprite height. `Instr.wellFormed` says
which values of `nnn` and `n` an encoding can hold (log entry 8). -/
inductive Instr where
  /-- 00E0, `CLS` (R170). -/
  | cls
  /-- 00EE, `RET` (R101). -/
  | ret
  /-- 1NNN, `JP addr` (R102). -/
  | jp (nnn : Word)
  /-- 2NNN, `CALL addr` (R103). -/
  | call (nnn : Word)
  /-- 3XNN, `SE Vx, byte` (R104). -/
  | seByte (x : Reg) (nn : Byte)
  /-- 4XNN, `SNE Vx, byte` (R105). -/
  | sneByte (x : Reg) (nn : Byte)
  /-- 5XY0, `SE Vx, Vy` (R106). -/
  | seReg (x y : Reg)
  /-- 9XY0, `SNE Vx, Vy` (R107). -/
  | sneReg (x y : Reg)
  /-- 6XNN, `LD Vx, byte` (R122). -/
  | ldByte (x : Reg) (nn : Byte)
  /-- 7XNN, `ADD Vx, byte` (R123). -/
  | addByte (x : Reg) (nn : Byte)
  /-- 8XY0, `LD Vx, Vy` (R124). -/
  | ldReg (x y : Reg)
  /-- 8XY1, `OR Vx, Vy` (R125). -/
  | orReg (x y : Reg)
  /-- 8XY2, `AND Vx, Vy` (R126). -/
  | andReg (x y : Reg)
  /-- 8XY3, `XOR Vx, Vy` (R127). -/
  | xorReg (x y : Reg)
  /-- 8XY4, `ADD Vx, Vy` (R128). -/
  | addReg (x y : Reg)
  /-- 8XY5, `SUB Vx, Vy` (R129). -/
  | subReg (x y : Reg)
  /-- 8XY6, `SHR Vx, Vy` (R130). -/
  | shrReg (x y : Reg)
  /-- 8XY7, `SUBN Vx, Vy` (R131). -/
  | subnReg (x y : Reg)
  /-- 8XYE, `SHL Vx, Vy` (R132). -/
  | shlReg (x y : Reg)
  /-- ANNN, `LD I, addr` (R151). -/
  | ldI (nnn : Word)
  /-- BNNN, `JP V0, addr` (R108). Under `Q.jump` the register is named by `nnn[11:8]`. -/
  | jpV0 (nnn : Word)
  /-- CXNN, `RND Vx, byte` (R133). -/
  | rnd (x : Reg) (nn : Byte)
  /-- DXYN, `DRW Vx, Vy, nibble` (R171). -/
  | drw (x y : Reg) (n : Nat)
  /-- FX07, `LD Vx, DT` (R190). -/
  | ldVxDt (x : Reg)
  /-- FX15, `LD DT, Vx` (R191). -/
  | ldDtVx (x : Reg)
  /-- FX18, `LD ST, Vx` (R192). -/
  | ldStVx (x : Reg)
  /-- FX1E, `ADD I, Vx` (R152). -/
  | addI (x : Reg)
  /-- FX29, `LD F, Vx` (R153). -/
  | ldF (x : Reg)
  /-- FX33, `LD B, Vx` (R154). -/
  | ldB (x : Reg)
  /-- FX55, `LD [I], Vx` (R155). -/
  | ldMemVx (x : Reg)
  /-- FX65, `LD Vx, [I]` (R156). -/
  | ldVxMem (x : Reg)
  deriving DecidableEq, Repr

end Sys2Proof
end

