-- ==== Sys2Proof/WellFormed.lean ====
section
/-! DEFINITION. Which instructions an encoding can hold: the ranges of the fields of
spec/30_encoding.md R72 and R73. Register indices and immediate bytes are in range by their types. -/

namespace Sys2Proof

/-- `nnn` is an unsigned 12-bit address (R73). -/
def addressFits (nnn : Word) : Bool := nnn.toNat < 4096

/-- `n` is an unsigned 4-bit count (R73). -/
def heightFits (n : Nat) : Bool := n < 16

/-- Every operand is a value its field of the instruction word can hold (R72, R73). -/
def Instr.wellFormed : Instr → Bool
  | .jp nnn => addressFits nnn
  | .call nnn => addressFits nnn
  | .ldI nnn => addressFits nnn
  | .jpV0 nnn => addressFits nnn
  | .drw _ _ n => heightFits n
  | .cls => true
  | .ret => true
  | .seByte _ _ => true
  | .sneByte _ _ => true
  | .seReg _ _ => true
  | .sneReg _ _ => true
  | .ldByte _ _ => true
  | .addByte _ _ => true
  | .ldReg _ _ => true
  | .orReg _ _ => true
  | .andReg _ _ => true
  | .xorReg _ _ => true
  | .addReg _ _ => true
  | .subReg _ _ => true
  | .shrReg _ _ => true
  | .subnReg _ _ => true
  | .shlReg _ _ => true
  | .rnd _ _ => true
  | .ldVxDt _ => true
  | .ldDtVx _ => true
  | .ldStVx _ => true
  | .addI _ => true
  | .ldF _ => true
  | .ldB _ => true
  | .ldMemVx _ => true
  | .ldVxMem _ => true

end Sys2Proof
end

