-- ==== Sys2Proof/Decode.lean ====
section
/-! DEFINITION. Decoding (spec/30_encoding.md R70 to R73, R80 to R87) and, after it, encoding. -/

namespace Sys2Proof

/-! ### Fields of the instruction word (R71, R72) -/

/-- `x = w[11:8]` (R72). -/
def fieldX (w : Word) : Reg := ⟨(w.extractLsb' 8 4).toNat, (w.extractLsb' 8 4).isLt⟩

/-- `y = w[7:4]` (R72). -/
def fieldY (w : Word) : Reg := ⟨(w.extractLsb' 4 4).toNat, (w.extractLsb' 4 4).isLt⟩

/-- `n = w[3:0]`, as a count (R72, R73). -/
def fieldN (w : Word) : Nat := (w.extractLsb' 0 4).toNat

/-- `nn = w[7:0]` (R72). -/
def fieldNN (w : Word) : Byte := w.extractLsb' 0 8

/-- `nnn = w[11:0]`, zero-extended to 16 bits (R72, R73). -/
def fieldNNN (w : Word) : Word := (w.extractLsb' 0 12).setWidth 16

/-! ### The opcode map (R80) -/

/-- A row of the opcode map: the word `w` matches it when `(w & mask) == match` (R80). -/
structure OpcodeRow where
  mask : Word
  pattern : Word
  build : Word → Instr

/-- Whether a word matches a row (R80). -/
def OpcodeRow.accepts (r : OpcodeRow) (w : Word) : Bool := w &&& r.mask == r.pattern

/-- Rows 1 to 8 of R80: display clear, control transfer and skips. -/
def opcodeRowsFlow : List OpcodeRow :=
  [⟨0xFFFF, 0x00E0, fun _ => .cls⟩,
   ⟨0xFFFF, 0x00EE, fun _ => .ret⟩,
   ⟨0xF000, 0x1000, fun w => .jp (fieldNNN w)⟩,
   ⟨0xF000, 0x2000, fun w => .call (fieldNNN w)⟩,
   ⟨0xF000, 0x3000, fun w => .seByte (fieldX w) (fieldNN w)⟩,
   ⟨0xF000, 0x4000, fun w => .sneByte (fieldX w) (fieldNN w)⟩,
   ⟨0xF00F, 0x5000, fun w => .seReg (fieldX w) (fieldY w)⟩,
   ⟨0xF00F, 0x9000, fun w => .sneReg (fieldX w) (fieldY w)⟩]

/-- Rows 9 to 19 of R80: register loads and the ALU. -/
def opcodeRowsAlu : List OpcodeRow :=
  [⟨0xF000, 0x6000, fun w => .ldByte (fieldX w) (fieldNN w)⟩,
   ⟨0xF000, 0x7000, fun w => .addByte (fieldX w) (fieldNN w)⟩,
   ⟨0xF00F, 0x8000, fun w => .ldReg (fieldX w) (fieldY w)⟩,
   ⟨0xF00F, 0x8001, fun w => .orReg (fieldX w) (fieldY w)⟩,
   ⟨0xF00F, 0x8002, fun w => .andReg (fieldX w) (fieldY w)⟩,
   ⟨0xF00F, 0x8003, fun w => .xorReg (fieldX w) (fieldY w)⟩,
   ⟨0xF00F, 0x8004, fun w => .addReg (fieldX w) (fieldY w)⟩,
   ⟨0xF00F, 0x8005, fun w => .subReg (fieldX w) (fieldY w)⟩,
   ⟨0xF00F, 0x8006, fun w => .shrReg (fieldX w) (fieldY w)⟩,
   ⟨0xF00F, 0x8007, fun w => .subnReg (fieldX w) (fieldY w)⟩,
   ⟨0xF00F, 0x800E, fun w => .shlReg (fieldX w) (fieldY w)⟩]

/-- Rows 20 to 31 of R80: index register, random byte, sprite, timers and memory transfers. -/
def opcodeRowsMisc : List OpcodeRow :=
  [⟨0xF000, 0xA000, fun w => .ldI (fieldNNN w)⟩,
   ⟨0xF000, 0xB000, fun w => .jpV0 (fieldNNN w)⟩,
   ⟨0xF000, 0xC000, fun w => .rnd (fieldX w) (fieldNN w)⟩,
   ⟨0xF000, 0xD000, fun w => .drw (fieldX w) (fieldY w) (fieldN w)⟩,
   ⟨0xF0FF, 0xF007, fun w => .ldVxDt (fieldX w)⟩,
   ⟨0xF0FF, 0xF015, fun w => .ldDtVx (fieldX w)⟩,
   ⟨0xF0FF, 0xF018, fun w => .ldStVx (fieldX w)⟩,
   ⟨0xF0FF, 0xF01E, fun w => .addI (fieldX w)⟩,
   ⟨0xF0FF, 0xF029, fun w => .ldF (fieldX w)⟩,
   ⟨0xF0FF, 0xF033, fun w => .ldB (fieldX w)⟩,
   ⟨0xF0FF, 0xF055, fun w => .ldMemVx (fieldX w)⟩,
   ⟨0xF0FF, 0xF065, fun w => .ldVxMem (fieldX w)⟩]

/-- The 31 rows of R80, in its order. -/
def opcodeMap : List OpcodeRow := opcodeRowsFlow ++ opcodeRowsAlu ++ opcodeRowsMisc

/-! ### Decoding -/

/-- Why no instruction was read. -/
inductive DecodeError where
  /-- The word matches no row of R80 (R85, R86). Safe or unsafe: exact, the step then follows R85. -/
  | unknownInstruction (w : Word)
  /-- Fewer than the two bytes of an instruction were given (R70); the machine's fetch always gives two. -/
  | truncated
  deriving DecidableEq, Repr

/-- The instruction word of two bytes in memory order: the byte at the lower address is the high
byte (R51, R70). -/
def wordOfBytes (high low : Byte) : Word := high ++ low

/-- The two bytes of an instruction word in memory order (R51, R70). -/
def bytesOfWord (w : Word) : List Byte := [w.extractLsb' 8 8, w.extractLsb' 0 8]

/-- Decoding is total: exactly one row of R80, or `unknownInstruction` (R81, R85). -/
def decode (w : Word) : Except DecodeError Instr :=
  match opcodeMap.find? (fun r => r.accepts w) with
  | some r => .ok (r.build w)
  | none => .error (.unknownInstruction w)

/-- Decode the first instruction of a byte sequence and return it with the bytes after it (R70). -/
def decodeBytes : List Byte → Except DecodeError (Instr × List Byte)
  | high :: low :: rest =>
    match decode (wordOfBytes high low) with
    | .ok i => .ok (i, rest)
    | .error e => .error e
  | [] => .error .truncated
  | [_] => .error .truncated

/-- The instruction the decoder reads from a table word of `nbits` bits: one 16-bit word (R70),
stored high byte first (R51). -/
def decodeTableWord (nbits w : Nat) : Option Instr :=
  match decodeBytes (bytesOfWord (BitVec.ofNat 16 (w % 2 ^ nbits))) with
  | .ok (i, _) => some i
  | .error _ => none

/-! ### Encoding (R71, R72, R80) -/

/-- A register field of the instruction word. -/
def regBits (x : Reg) : BitVec 4 := BitVec.ofNat 4 x.val

/-- The word of a pattern `KNNN`. -/
def wordKNNN (k : BitVec 4) (nnn : Word) : Word := k ++ nnn.setWidth 12

/-- The word of a pattern `KXNN`. -/
def wordKXNN (k : BitVec 4) (x : Reg) (nn : Byte) : Word := k ++ regBits x ++ nn

/-- The word of a pattern `KXYN`. -/
def wordKXYN (k : BitVec 4) (x y : Reg) (n : BitVec 4) : Word := k ++ regBits x ++ regBits y ++ n

/-- The word of an instruction, from the patterns of R80. -/
def encode : Instr → Word
  | .cls => 0x00E0
  | .ret => 0x00EE
  | .jp nnn => wordKNNN 0x1 nnn
  | .call nnn => wordKNNN 0x2 nnn
  | .seByte x nn => wordKXNN 0x3 x nn
  | .sneByte x nn => wordKXNN 0x4 x nn
  | .seReg x y => wordKXYN 0x5 x y 0x0
  | .sneReg x y => wordKXYN 0x9 x y 0x0
  | .ldByte x nn => wordKXNN 0x6 x nn
  | .addByte x nn => wordKXNN 0x7 x nn
  | .ldReg x y => wordKXYN 0x8 x y 0x0
  | .orReg x y => wordKXYN 0x8 x y 0x1
  | .andReg x y => wordKXYN 0x8 x y 0x2
  | .xorReg x y => wordKXYN 0x8 x y 0x3
  | .addReg x y => wordKXYN 0x8 x y 0x4
  | .subReg x y => wordKXYN 0x8 x y 0x5
  | .shrReg x y => wordKXYN 0x8 x y 0x6
  | .subnReg x y => wordKXYN 0x8 x y 0x7
  | .shlReg x y => wordKXYN 0x8 x y 0xE
  | .ldI nnn => wordKNNN 0xA nnn
  | .jpV0 nnn => wordKNNN 0xB nnn
  | .rnd x nn => wordKXNN 0xC x nn
  | .drw x y n => wordKXYN 0xD x y (BitVec.ofNat 4 n)
  | .ldVxDt x => wordKXNN 0xF x 0x07
  | .ldDtVx x => wordKXNN 0xF x 0x15
  | .ldStVx x => wordKXNN 0xF x 0x18
  | .addI x => wordKXNN 0xF x 0x1E
  | .ldF x => wordKXNN 0xF x 0x29
  | .ldB x => wordKXNN 0xF x 0x33
  | .ldMemVx x => wordKXNN 0xF x 0x55
  | .ldVxMem x => wordKXNN 0xF x 0x65

/-- The two bytes of an instruction in memory order (R51, R70). -/
def encodeBytes (i : Instr) : List Byte := bytesOfWord (encode i)

end Sys2Proof
end

