-- ==== Sys2Proof/Config.lean ====
section
/-! DEFINITION. What is fixed when the core is built (spec/00_scope.md R6, R7; spec/10_state.md R20, R33)
and the one free value of the model, the random-byte input (spec/60_exceptions.md R224). -/

namespace Sys2Proof

/-- The static parameters of the core (R6): "fixed for the life of the core" (R20).
Each field ranges over everything the rules allow, and a claim about every state holds for every
choice of them. -/
structure Config where
  /-- FONT_BASE. LOAD_FONT has "no failure mode" (R243), so the 80 bytes from here lie in memory:
  at most 4096 - 80 (DEDUCED, log entry 12). -/
  fontBase : Fin 4017
  /-- FONT_GLYPHS: 16 glyphs of 5 bytes, one byte a row, top row first (R244). -/
  fontGlyphs : Vector Byte 80
  /-- STACK_DEPTH: the most return addresses the call stack holds (R29). -/
  stackDepth : Nat
  /-- ADD_SETS_CARRY: whether 8XY4 writes the carry into VF (R33, R128). -/
  addSetsCarry : Bool
  deriving DecidableEq, Repr

/-- The default glyphs of the digits 0 to 7 (R245). -/
def Config.glyphsLow : List Byte :=
  [0xF0, 0x90, 0x90, 0x90, 0xF0] ++ [0x20, 0x60, 0x20, 0x20, 0x70] ++
  [0xF0, 0x10, 0xF0, 0x80, 0xF0] ++ [0xF0, 0x10, 0xF0, 0x10, 0xF0] ++
  [0x90, 0x90, 0xF0, 0x10, 0x10] ++ [0xF0, 0x80, 0xF0, 0x10, 0xF0] ++
  [0xF0, 0x80, 0xF0, 0x90, 0xF0] ++ [0xF0, 0x10, 0x20, 0x40, 0x40]

/-- The default glyphs of the digits 8 to F (R245). -/
def Config.glyphsHigh : List Byte :=
  [0xF0, 0x90, 0xF0, 0x90, 0xF0] ++ [0xF0, 0x90, 0xF0, 0x10, 0xF0] ++
  [0xF0, 0x90, 0xF0, 0x90, 0x90] ++ [0xE0, 0x90, 0xE0, 0x90, 0xE0] ++
  [0xF0, 0x80, 0x80, 0x80, 0xF0] ++ [0xE0, 0x90, 0x90, 0x90, 0xE0] ++
  [0xF0, 0x80, 0xF0, 0x80, 0xF0] ++ [0xF0, 0x80, 0xF0, 0x80, 0x80]

/-- The defaults of R6 and R245 (log entry 4). -/
def Config.default : Config where
  fontBase := 0x10
  fontGlyphs := ⟨⟨Config.glyphsLow ++ Config.glyphsHigh⟩, rfl⟩
  stackDepth := 16
  addSetsCarry := true

/-- FREE VALUE (log entry 5): what the random-byte input port presents at the k-th sample since the
core was built. "This specification places no constraint on the values, so a model treats each
sample as a free draw" (R224). It has no body, so nothing can be proved of its values. -/
opaque Config.randomByte : Nat → Byte

end Sys2Proof
end

