-- ==== Sys2Proof/Machine/State.lean ====
section
/-! DEFINITION. The state of the core (spec/10_state.md R20 to R37), its errors
(spec/60_exceptions.md R200), its fault and refusal types, and the state after reset. -/

namespace Sys2Proof.Machine

/-- The memory array (R35, R50): a list of (address, byte) pairs with strictly rising addresses and
no entry that holds 0, the value an unlisted byte reads as, since "mem[0..4095]" is "all 0" after
RESET (R36; log entry 7). -/
abbrev Memory := List Host.Cell

/-- The register file V0 to VF (R21). -/
abbrev RegFile := Vector Byte 16

/-- The packed display buffer: 256 bytes, row-major, 8 pixels per byte (R30). -/
abbrev Display := Vector Byte 256

/-- The state of the core. The first nine fields are the spec's tuple (R20). `draws` is the model's
own (log entry 5); `cfg` carries the static parameters, which no step and no host transaction
changes (log entry 3). -/
structure State where
  /-- V[0..15]; V[15] is VF (R21, R22). -/
  v : RegFile
  /-- The program counter (R24). -/
  pc : Word
  /-- The index register I (R28). -/
  i : Word
  /-- The call stack, the last element on top (R10, R29). -/
  stack : List Word
  /-- The delay timer DT (R31). -/
  dt : Byte
  /-- The sound timer ST (R31). -/
  st : Byte
  /-- The memory array (R35). -/
  mem : Memory
  /-- The display buffer (R30). -/
  disp : Display
  /-- The quirk register Q: bit 0 shift, bit 1 loadstore, bit 2 jump (R32). -/
  q : BitVec 3
  /-- How many random bytes CXNN has sampled; the model's own field, not the spec's. -/
  draws : Nat
  /-- The static parameters FONT_BASE, FONT_GLYPHS, STACK_DEPTH and ADD_SETS_CARRY (R6, R20). -/
  cfg : Config
  deriving DecidableEq, Repr

/-- The errors of R200, each with the information it reports (R201 to R207). An error stops nothing:
it is an answer to the host, and the state after it is the one R205 gives (log entry 1). -/
inductive Error where
  /-- The fetch step found `pc0 >= 4095` (R57, R201). -/
  | programCounterOutOfBounds (pc0 : Word)
  /-- 00EE on an empty call stack (R101, R202). -/
  | stackUnderflow (pc0 : Word)
  /-- The fetched word matches no row of the opcode map (R85, R203). -/
  | unknownInstruction (w : Word)
  /-- 2NNN on a call stack that holds STACK_DEPTH entries (R103, R206). -/
  | stackOverflow (pc0 : Word)
  /-- DXYN, FX33, FX55 or FX65 would access an address of 4096 or more (R56, R207). -/
  | memoryOutOfBounds (addr : Word)
  /-- LOAD_PROGRAM of more than 3584 bytes (R204, R247). -/
  | programTooLarge
  deriving DecidableEq, Repr

/-- What could stop the machine: nothing. Every error is "reported once" and "None of them stops the
core" (R200), and the rules give the state after each (R205), so this type has no constructor and no
step ends in a fault. Exact with respect to the spec (log entry 1). -/
inductive Fault where
  deriving DecidableEq, Repr

/-- Why a step has no meaning. -/
inductive Refusal where
  /-- Raised only by an arm of exec whose instruction has no meaning yet; safe. No arm raises it now. -/
  | notModelled (mnemonic : String)
  deriving DecidableEq, Repr

/-- The entry point and the program load offset, PROGRAM_BASE (R6, R241). -/
abbrev programBase : Word := 0x200

/-- The state after RESET on a core with the static parameters `cfg` (R36, R240); `draws` is where
the random-byte input stands, which RESET does not touch (log entry 5). -/
def State.resetWith (cfg : Config) (draws : Nat) : State where
  v := Vector.replicate 16 0
  pc := programBase
  i := 0
  stack := []
  dt := 0
  st := 0
  mem := []
  disp := Vector.replicate 256 0
  q := 0b000
  draws := draws
  cfg := cfg

/-- The machine right after reset (R36, R240), with the default parameters of R6. -/
def State.reset : State := State.resetWith Config.default 0

end Sys2Proof.Machine
end

