-- ==== Sys2Proof/Machine/Ops.lean ====
section
/-! DEFINITION. The named operations over registers, memory, call stack and display; raising an
error; fetching (spec/00_scope.md R10 to R12, spec/20_memory.md, spec/60_exceptions.md R205). -/

namespace Sys2Proof.Machine

/-! ### Memory (R35, R50 to R59) -/

/-- MEM_SIZE (R6): addresses 0 to 4095 exist. -/
abbrev memSize : Nat := 4096

/-- `MemRead(a, 1)` (R11). A byte that is not listed is 0 (R36). -/
def Memory.read : Memory → Nat → Byte
  | [], _ => 0
  | (b, u) :: m, a => if a = b then u else Memory.read m a

/-- Put a byte into the sorted list of nonzero bytes. -/
def Memory.insert : Memory → Nat → Byte → Memory
  | [], a, u => if u = 0 then [] else [(a, u)]
  | (b, w) :: m, a, u =>
    if a < b then (if u = 0 then (b, w) :: m else (a, u) :: (b, w) :: m)
    else if a = b then (if u = 0 then m else (a, u) :: m)
    else (b, w) :: Memory.insert m a u

/-- `MemWrite(a, 1, u)` (R11). "Addresses ≥ 4096 are never read or written" (R56): every caller
checks first, and an address beyond the array leaves it alone. -/
def Memory.write (m : Memory) (a : Nat) (u : Byte) : Memory :=
  if a < memSize then Memory.insert m a u else m

/-- Write consecutive bytes from address `a`, ascending (R54, R243, R246). -/
def Memory.writeBytes : Memory → Nat → List Byte → Memory
  | m, _, [] => m
  | m, a, u :: us => Memory.writeBytes (Memory.write m a u) (a + 1) us

/-- Read `n` consecutive bytes from address `a`, ascending (R54). -/
def Memory.readBytes (m : Memory) (a n : Nat) : List Byte :=
  (List.range n).map (fun k => Memory.read m (a + k))

/-- The canonical form of memory: strictly rising addresses inside the array, no byte 0. -/
abbrev Memory.wf (m : Memory) : Prop :=
  m.Pairwise (fun c d => c.1 < d.1) ∧ ∀ c ∈ m, c.1 < memSize ∧ c.2 ≠ 0

/-! ### Registers and timers (R10, R21, R31) -/

/-- `V[x]` (R10). -/
def readV (s : State) (x : Reg) : Byte := s.v.get x

/-- `V[x] <- u` (R10). -/
def writeV (s : State) (x : Reg) (u : Byte) : State := { s with v := s.v.set x.val u x.isLt }

/-- Replace consecutive registers from V[k], ascending (R54, R156). -/
def writeRegs : RegFile → Nat → List Byte → RegFile
  | v, _, [] => v
  | v, k, u :: us => writeRegs (v.setIfInBounds k u) (k + 1) us

/-- Replace the register file. -/
def setV (s : State) (v : RegFile) : State := { s with v := v }

/-- `pc <- a` (R10). -/
def setPc (s : State) (a : Word) : State := { s with pc := a }

/-- `I <- a` (R10). -/
def setI (s : State) (a : Word) : State := { s with i := a }

/-- `DT <- u` (R10). -/
def setDt (s : State) (u : Byte) : State := { s with dt := u }

/-- `ST <- u` (R10). -/
def setSt (s : State) (u : Byte) : State := { s with st := u }

/-- Replace the memory array. -/
def setMem (s : State) (m : Memory) : State := { s with mem := m }

/-- Replace the display buffer. -/
def setDisp (s : State) (d : Display) : State := { s with disp := d }

/-- Replace the call stack. -/
def setStack (s : State) (st : List Word) : State := { s with stack := st }

/-- Replace the quirk register (R226). -/
def setQ (s : State) (q : BitVec 3) : State := { s with q := q }

/-- Move the random-byte input on by one sample (log entry 5). -/
def countDraw (s : State) : State := { s with draws := s.draws + 1 }

/-! ### Quirks (R32) -/

/-- `Q.shift`, bit 0. -/
def quirkShift (s : State) : Bool := s.q.getLsbD 0

/-- `Q.loadstore`, bit 1. -/
def quirkLoadstore (s : State) : Bool := s.q.getLsbD 1

/-- `Q.jump`, bit 2. -/
def quirkJump (s : State) : Bool := s.q.getLsbD 2

/-! ### The program counter (R24, R25, R76) -/

/-- The default PC advance, step 3 of the cycle: `pc <- pc0 + 2` (R75). -/
def advancePc (s : State) : State := setPc s (s.pc + 2)

/-- The address of the executing instruction: while it executes, `pc` reads as `pc0 + 2` (R76). -/
def pc0 (s : State) : Word := s.pc - 2

/-- A skip adds 2 more to `pc` when its condition holds (R100). -/
def skipIf (condition : Bool) (s : State) : State :=
  if condition then setPc s (s.pc + 2) else s

/-! ### Errors (R12, R205, R211) -/

/-- `raise E(info)` (R12): it ends the ADVANCE in the state it is raised in. "An error saves no state,
changes no mode, pushes nothing on the call stack and transfers control nowhere" (R211); the pc
values of R205 follow from where in the cycle the error is met. The status and `info` are the
response (Sys2Proof.Machine.advanceError). -/
def raise (_error : Error) (s : State) : Host.Outcome State Fault Refusal := .next s

/-- End an ADVANCE that began its execute step in `s`: with its result, or by raising its error. -/
def settle (s : State) : Except Error State → Host.Outcome State Fault Refusal
  | .ok t => .next t
  | .error e => raise e s

/-- The lowest address of 4096 or more among `base .. base + k`, when there is one (R150). -/
def lowestOffending (base : Word) : Word := if memSize ≤ base.toNat then base else 4096

/-- The bounds check of R56: the result `t` if the `n` bytes from `base` all lie in the array, and
otherwise MemoryOutOfBounds with the lowest offending address. Addresses are exact naturals (R55). -/
def ifInBounds (base : Word) (n : Nat) (t : State) : Except Error State :=
  if n = 0 ∨ base.toNat + n ≤ memSize then .ok t
  else .error (.memoryOutOfBounds (lowestOffending base))

/-! ### Call stack (R29) -/

/-- `push(a)` and then go to `target`, unless the stack holds STACK_DEPTH entries (R103). -/
def callTo (target : Word) (s : State) : Except Error State :=
  if s.stack.length = s.cfg.stackDepth then .error (.stackOverflow (pc0 s))
  else .ok (setPc (setStack s (s.stack ++ [s.pc])) target)

/-- `pc <- pop()`, unless the stack is empty (R101). -/
def returnToCaller (s : State) : Except Error State :=
  match s.stack.getLast? with
  | none => .error (.stackUnderflow (pc0 s))
  | some a => .ok (setPc (setStack s s.stack.dropLast) a)

/-! ### The random-byte input (R224) -/

/-- The byte that `rnd8()` samples in this state (R12, R133): a free value. -/
def rnd8 (s : State) : Byte := Config.randomByte s.draws

/-! ### Display (R30, R171 to R176) -/

/-- The index of pixel (col, row) (R30). -/
def pixelIndex (row col : Nat) : Nat := row * 64 + col

/-- `disp[p]`: byte `p / 8`, bit `7 - (p mod 8)` (R30). -/
def readPixel (d : Display) (p : Nat) : Bool := (d[p / 8]?.getD 0).getLsbD (7 - p % 8)

/-- `disp[p] <- disp[p] ^ 1` (R30, R175). -/
def flipPixel (d : Display) (p : Nat) : Display :=
  d.setIfInBounds (p / 8) ((d[p / 8]?.getD 0) ^^^ (1#8 <<< (7 - p % 8)))

/-- Bit `c` of a sprite byte, counting from the most significant (R175). -/
def spriteBit (b : Byte) (c : Nat) : Bool := b.getLsbD (7 - c)

/-- One column of the blit: a set sprite bit inside the display flips its pixel, and records a
collision if the pixel was on (R171, R173, R175, R176). -/
def blitPixel (b : Byte) (x0 row : Nat) (acc : Display × Bool) (c : Nat) : Display × Bool :=
  if x0 + c < 64 && spriteBit b c then
    (flipPixel acc.1 (pixelIndex row (x0 + c)), acc.2 || readPixel acc.1 (pixelIndex row (x0 + c)))
  else acc

/-- One row of the blit: the sprite byte `mem[base + r]`, columns 0 to 7 (R171, R174). -/
def blitRow (m : Memory) (base x0 y0 : Nat) (acc : Display × Bool) (r : Nat) : Display × Bool :=
  (List.range 8).foldl (blitPixel (Memory.read m (base + r)) x0 (y0 + r)) acc

/-- The blit of `h` rows from the anchor (x0, y0): the display after it and whether a set sprite bit
met a pixel that was on (R171). -/
def blit (m : Memory) (base x0 y0 h : Nat) (d : Display) : Display × Bool :=
  (List.range h).foldl (blitRow m base x0 y0) (d, false)

/-- All 256 bytes 0x00 (R170). -/
def clearedDisplay : Display := Vector.replicate 256 0

/-! ### Fetch (R51, R57, R75) -/

/-- The word at `pc`, high byte first, or the error of the fetch bounds check. -/
def fetch (s : State) : Except Error Word :=
  if 4095 ≤ s.pc.toNat then .error (.programCounterOutOfBounds s.pc)
  else .ok (wordOfBytes (Memory.read s.mem s.pc.toNat) (Memory.read s.mem (s.pc.toNat + 1)))

/-- The state whose next fetch reads the word `w`: `w` is stored at `pc`, high byte first (R51). From
a `pc` where no fetch succeeds (R57), `pc` is first set to the entry point (log entry 9). -/
def placeFetchWord (s : State) (w : Word) : State :=
  let s := if 4095 ≤ s.pc.toNat then setPc s programBase else s
  setMem s (Memory.writeBytes s.mem s.pc.toNat (bytesOfWord w))

end Sys2Proof.Machine
end

