-- ==== Sys2Proof/Machine/Flags.lean ====
section
/-! DEFINITION. Every flag computation (spec/10_state.md R23, spec/41_alu.md R134) and the order in
which a flag and a result are written (spec/41_alu.md R121). -/

namespace Sys2Proof.Machine

/-- A flag is the byte 1 or 0. -/
def flagByte (b : Bool) : Byte := if b then 1 else 0

/-- 8XY4: 1 when the exact sum exceeds 255 (R128). -/
def carryFlag (a b : Byte) : Byte := flagByte (decide (255 < a.toNat + b.toNat))

/-- 8XY5 and 8XY7: 1 when the minuend is strictly greater (R129, R131). -/
def greaterFlag (minuend subtrahend : Byte) : Byte :=
  flagByte (decide (subtrahend.toNat < minuend.toNat))

/-- 8XY6: bit 0 of the source (R130). -/
def shiftedOutLow (src : Byte) : Byte := flagByte (src.getLsbD 0)

/-- 8XYE: bit 7 of the source (R132). -/
def shiftedOutHigh (src : Byte) : Byte := flagByte (src.getLsbD 7)

/-- DXYN: 1 when a set sprite bit met a pixel that was on (R176). -/
def collisionFlag (hit : Bool) : Byte := flagByte hit

/-- VF takes the flag, then VX the result, both computed from the operands before any write; so when
`x = 15` the result wins (R121). -/
def writeFlagged (s : State) (x : Reg) (flag result : Byte) : State :=
  writeV (writeV s VF flag) x result

end Sys2Proof.Machine
end

