-- ==== Sys2Proof/Machine/Operands.lean ====
section
/-! DEFINITION. The operand forms of the instructions (spec/30_encoding.md R73 and the instruction
rules). Immediates are used as they are; `nnn` is already zero-extended (spec/30_encoding.md R73). -/

namespace Sys2Proof.Machine

/-- `zext_16(V[x])` (R9, R73). -/
def zextV (s : State) (x : Reg) : Word := (readV s x).setWidth 16

/-- The source of a shift: VY, or VX when `Q.shift` is on (R130, R132). -/
def shiftSource (s : State) (x y : Reg) : Byte := if quirkShift s then readV s x else readV s y

/-- The register BNNN adds: V0, or VX with `x = w[11:8]`, the top nibble of `nnn`, when `Q.jump` is
on (R108; spec/90_conflicts.md C3). -/
def jumpOffsetReg (s : State) (nnn : Word) : Reg := if quirkJump s then fieldX nnn else 0

/-- FX29: `FONT_BASE + 5 * zext_16(V[x])`, with VX not masked (R153). -/
def glyphAddress (s : State) (x : Reg) : Word :=
  BitVec.ofNat 16 (s.cfg.fontBase.val + 5 * (readV s x).toNat)

/-- FX33: the three decimal digits of a byte, hundreds first (R154). -/
def bcdDigits (u : Byte) : List Byte :=
  [BitVec.ofNat 8 (u.toNat / 100), BitVec.ofNat 8 (u.toNat / 10 % 10), BitVec.ofNat 8 (u.toNat % 10)]

/-- V0 to VX, in order (R155). -/
def regsThrough (s : State) (x : Reg) : List Byte := s.v.toList.take (x.val + 1)

/-- FX55 and FX65: `I <- I + x + 1` unless `Q.loadstore` is on (R155, R156). -/
def bumpIndex (x : Reg) (s : State) : State :=
  if quirkLoadstore s then s else setI s (s.i + BitVec.ofNat 16 (x.val + 1))

/-- DXYN: the starting column `V[x] mod 64` (R172). -/
def anchorColumn (s : State) (x : Reg) : Nat := (readV s x).toNat % 64

/-- DXYN: the starting row `V[y] mod 32` (R172). -/
def anchorRow (s : State) (y : Reg) : Nat := (readV s y).toNat % 32

/-- DXYN: the number of rows that are drawn, `min(n, 32 - y0)` (R171, R173). -/
def rowsDrawn (s : State) (y : Reg) (n : Nat) : Nat := min n (32 - anchorRow s y)

end Sys2Proof.Machine
end

