-- ==== Sys2Proof/Machine/Alu.lean ====
section
/-! DEFINITION. Register loads, the ALU and the random byte (spec/41_alu.md). Operands are read
before any register is written (R121). -/

namespace Sys2Proof.Machine

/-- `LD Vx, byte` (R122). -/
def execLdByte (x : Reg) (nn : Byte) (s : State) : Host.Outcome State Fault Refusal :=
  .next (writeV s x nn)

/-- `ADD Vx, byte` (R123): no flag. -/
def execAddByte (x : Reg) (nn : Byte) (s : State) : Host.Outcome State Fault Refusal :=
  .next (writeV s x (readV s x + nn))

/-- `LD Vx, Vy` (R124). -/
def execLdReg (x y : Reg) (s : State) : Host.Outcome State Fault Refusal :=
  .next (writeV s x (readV s y))

/-- `OR Vx, Vy` (R125): VF is not reset. -/
def execOrReg (x y : Reg) (s : State) : Host.Outcome State Fault Refusal :=
  .next (writeV s x (readV s x ||| readV s y))

/-- `AND Vx, Vy` (R126): VF is not reset. -/
def execAndReg (x y : Reg) (s : State) : Host.Outcome State Fault Refusal :=
  .next (writeV s x (readV s x &&& readV s y))

/-- `XOR Vx, Vy` (R127): VF is not reset. -/
def execXorReg (x y : Reg) (s : State) : Host.Outcome State Fault Refusal :=
  .next (writeV s x (readV s x ^^^ readV s y))

/-- `ADD Vx, Vy` (R128): the carry goes to VF only when ADD_SETS_CARRY (R33). -/
def execAddReg (x y : Reg) (s : State) : Host.Outcome State Fault Refusal :=
  .next (if s.cfg.addSetsCarry then
      writeFlagged s x (carryFlag (readV s x) (readV s y)) (readV s x + readV s y)
    else writeV s x (readV s x + readV s y))

/-- `SUB Vx, Vy` (R129). -/
def execSubReg (x y : Reg) (s : State) : Host.Outcome State Fault Refusal :=
  .next (writeFlagged s x (greaterFlag (readV s x) (readV s y)) (readV s x - readV s y))

/-- `SHR Vx, Vy` (R130). -/
def execShrReg (x y : Reg) (s : State) : Host.Outcome State Fault Refusal :=
  .next (writeFlagged s x (shiftedOutLow (shiftSource s x y)) (shiftSource s x y >>> 1))

/-- `SUBN Vx, Vy` (R131). -/
def execSubnReg (x y : Reg) (s : State) : Host.Outcome State Fault Refusal :=
  .next (writeFlagged s x (greaterFlag (readV s y) (readV s x)) (readV s y - readV s x))

/-- `SHL Vx, Vy` (R132). -/
def execShlReg (x y : Reg) (s : State) : Host.Outcome State Fault Refusal :=
  .next (writeFlagged s x (shiftedOutHigh (shiftSource s x y)) (shiftSource s x y <<< 1))

/-- `RND Vx, byte` (R133): the port is sampled once, even when `nn = 0`. -/
def execRnd (x : Reg) (nn : Byte) (s : State) : Host.Outcome State Fault Refusal :=
  .next (countDraw (writeV s x (rnd8 s &&& nn)))

end Sys2Proof.Machine
end

