-- ==== Sys2Proof/Machine/Display.lean ====
section
/-! DEFINITION. Display clear and sprite blit (spec/43_display.md). -/

namespace Sys2Proof.Machine

/-- `CLS` (R170). -/
def execCls (s : State) : Host.Outcome State Fault Refusal := .next (setDisp s clearedDisplay)

/-- What DXYN does, or its error (R171 to R178). The anchor is read before VF is written (R172). -/
def drawSprite (x y : Reg) (n : Nat) (s : State) : Except Error State :=
  let drawn := blit s.mem s.i.toNat (anchorColumn s x) (anchorRow s y) (rowsDrawn s y n) s.disp
  ifInBounds s.i (rowsDrawn s y n) (setDisp (writeV s VF (collisionFlag drawn.2)) drawn.1)

/-- `DRW Vx, Vy, nibble` (R171). -/
def execDrw (x y : Reg) (n : Nat) (s : State) : Host.Outcome State Fault Refusal :=
  settle s (drawSprite x y n s)

end Sys2Proof.Machine
end

