-- ==== Sys2Proof/Machine/Flow.lean ====
section
/-! DEFINITION. Control transfer and skips (spec/40_flow.md). Each runs with `pc = pc0 + 2` (R76). -/

namespace Sys2Proof.Machine

/-- `RET` (R101). -/
def execRet (s : State) : Host.Outcome State Fault Refusal := settle s (returnToCaller s)

/-- `JP addr` (R102). -/
def execJp (nnn : Word) (s : State) : Host.Outcome State Fault Refusal := .next (setPc s nnn)

/-- `CALL addr` (R103). -/
def execCall (nnn : Word) (s : State) : Host.Outcome State Fault Refusal := settle s (callTo nnn s)

/-- `SE Vx, byte` (R104). -/
def execSeByte (x : Reg) (nn : Byte) (s : State) : Host.Outcome State Fault Refusal :=
  .next (skipIf (readV s x == nn) s)

/-- `SNE Vx, byte` (R105). -/
def execSneByte (x : Reg) (nn : Byte) (s : State) : Host.Outcome State Fault Refusal :=
  .next (skipIf (readV s x != nn) s)

/-- `SE Vx, Vy` (R106). -/
def execSeReg (x y : Reg) (s : State) : Host.Outcome State Fault Refusal :=
  .next (skipIf (readV s x == readV s y) s)

/-- `SNE Vx, Vy` (R107). -/
def execSneReg (x y : Reg) (s : State) : Host.Outcome State Fault Refusal :=
  .next (skipIf (readV s x != readV s y) s)

/-- `JP V0, addr` (R108): the sum is not reduced to 12 bits. -/
def execJpV0 (nnn : Word) (s : State) : Host.Outcome State Fault Refusal :=
  .next (setPc s (nnn + zextV s (jumpOffsetReg s nnn)))

end Sys2Proof.Machine
end

