-- ==== Sys2Proof/Machine/IndexMemory.lean ====
section
/-! DEFINITION. The index register and memory transfers (spec/42_index_memory.md). Every address is
checked before any write (spec/20_memory.md R56). -/

namespace Sys2Proof.Machine

/-- `LD I, addr` (R151). -/
def execLdI (nnn : Word) (s : State) : Host.Outcome State Fault Refusal := .next (setI s nnn)

/-- `ADD I, Vx` (R152): 16-bit wrap, no flag. -/
def execAddI (x : Reg) (s : State) : Host.Outcome State Fault Refusal :=
  .next (setI s (s.i + zextV s x))

/-- `LD F, Vx` (R153). -/
def execLdF (x : Reg) (s : State) : Host.Outcome State Fault Refusal :=
  .next (setI s (glyphAddress s x))

/-- What FX33 does, or its error (R154). -/
def storeBcd (x : Reg) (s : State) : Except Error State :=
  ifInBounds s.i 3 (setMem s (Memory.writeBytes s.mem s.i.toNat (bcdDigits (readV s x))))

/-- `LD B, Vx` (R154). -/
def execLdB (x : Reg) (s : State) : Host.Outcome State Fault Refusal := settle s (storeBcd x s)

/-- What FX55 does, or its error (R155). -/
def storeRegs (x : Reg) (s : State) : Except Error State :=
  ifInBounds s.i (x.val + 1)
    (bumpIndex x (setMem s (Memory.writeBytes s.mem s.i.toNat (regsThrough s x))))

/-- `LD [I], Vx` (R155). -/
def execLdMemVx (x : Reg) (s : State) : Host.Outcome State Fault Refusal := settle s (storeRegs x s)

/-- What FX65 does, or its error (R156). -/
def loadRegs (x : Reg) (s : State) : Except Error State :=
  ifInBounds s.i (x.val + 1)
    (bumpIndex x (setV s (writeRegs s.v 0 (Memory.readBytes s.mem s.i.toNat (x.val + 1)))))

/-- `LD Vx, [I]` (R156). -/
def execLdVxMem (x : Reg) (s : State) : Host.Outcome State Fault Refusal := settle s (loadRegs x s)

end Sys2Proof.Machine
end

