-- ==== Sys2Proof/Machine/Timers.lean ====
section
/-! DEFINITION. Timer instructions (spec/44_timers.md). -/

namespace Sys2Proof.Machine

/-- `LD Vx, DT` (R190). -/
def execLdVxDt (x : Reg) (s : State) : Host.Outcome State Fault Refusal := .next (writeV s x s.dt)

/-- `LD DT, Vx` (R191). -/
def execLdDtVx (x : Reg) (s : State) : Host.Outcome State Fault Refusal := .next (setDt s (readV s x))

/-- `LD ST, Vx` (R192). -/
def execLdStVx (x : Reg) (s : State) : Host.Outcome State Fault Refusal := .next (setSt s (readV s x))

end Sys2Proof.Machine
end

