-- ==== Sys2Proof/Machine/Step.lean ====
section
/-! DEFINITION. One step is one ADVANCE (spec/30_encoding.md R75). -/

namespace Sys2Proof.Machine

/-- The advance cycle (R75): fetch, decode, default PC advance, execute. A failed fetch changes
nothing (R57); a word outside the opcode map is stepped over (R85). The response, step 5 of the
cycle, is `Sys2Proof.Machine.advanceError`. -/
def step (s : State) : Host.Outcome State Fault Refusal :=
  match fetch s with
  | .error e => raise e s
  | .ok w =>
    match decode w with
    | .error _ => raise (.unknownInstruction w) (advancePc s)
    | .ok i => exec i (advancePc s)

/-- `s` with the table word `w` of `nbits` bits stored where step fetches next. -/
def State.withFetchWord (s : State) (nbits w : Nat) : State :=
  placeFetchWord s (BitVec.ofNat 16 (w % 2 ^ nbits))

end Sys2Proof.Machine
end

