-- ==== Sys2Proof/Machine/Ports.lean ====
section
/-! DEFINITION. The response of an ADVANCE and the host's transactions
(spec/60_exceptions.md R208, R209, R220 to R226; spec/70_reset_and_hazards.md R240 to R247). -/

namespace Sys2Proof.Machine

/-! ### The response of an ADVANCE (R75 step 5, R208, R209) -/

/-- The error of an execute step, if it ends in one. -/
def errorOf : Except Error State → Option Error
  | .ok _ => none
  | .error e => some e

/-- The error an instruction raises in its execute step. Each instruction has at most one check of
its own (R209), the one its meaning settles. -/
def instrError (i : Instr) (s : State) : Option Error :=
  match i with
  | .ret => errorOf (returnToCaller s)
  | .call nnn => errorOf (callTo nnn s)
  | .drw x y n => errorOf (drawSprite x y n s)
  | .ldB x => errorOf (storeBcd x s)
  | .ldMemVx x => errorOf (storeRegs x s)
  | .ldVxMem x => errorOf (loadRegs x s)
  | .cls | .jp _ | .seByte _ _ | .sneByte _ _ | .seReg _ _ | .sneReg _ _ | .ldByte _ _
  | .addByte _ _ | .ldReg _ _ | .orReg _ _ | .andReg _ _ | .xorReg _ _ | .addReg _ _ | .subReg _ _
  | .shrReg _ _ | .subnReg _ _ | .shlReg _ _ | .ldI _ | .jpV0 _ | .rnd _ _ | .ldVxDt _ | .ldDtVx _
  | .ldStVx _ | .addI _ | .ldF _ => none

/-- The error an ADVANCE from `s` reports: fetch bounds, then decode, then the instruction's own
check (R209). -/
def advanceError (s : State) : Option Error :=
  match fetch s with
  | .error e => some e
  | .ok w =>
    match decode w with
    | .error _ => some (.unknownInstruction w)
    | .ok i => instrError i (advancePc s)

/-- The status code of R208. -/
def statusCode : Option Error → Nat
  | none => 0
  | some (.programCounterOutOfBounds _) => 1
  | some (.stackUnderflow _) => 2
  | some (.unknownInstruction _) => 3
  | some (.stackOverflow _) => 4
  | some (.memoryOutOfBounds _) => 5
  | some .programTooLarge => 6

/-- The information word of R208. -/
def infoWord : Option Error → Word
  | none => 0
  | some (.programCounterOutOfBounds a) => a
  | some (.stackUnderflow a) => a
  | some (.unknownInstruction w) => w
  | some (.stackOverflow a) => a
  | some (.memoryOutOfBounds a) => a
  | some .programTooLarge => 0

/-! ### Transactions (R220) -/

/-- The two timers of the timer ports (R222). -/
inductive Timer where
  | dt
  | st
  deriving DecidableEq, Repr

/-- What INSPECT can read (R225). -/
inductive InspectItem where
  | v (x : Reg)
  | pc
  | i
  | timer (t : Timer)
  | q
  | stack
  | mem (a : Fin 4096)
  deriving DecidableEq, Repr

/-- The value INSPECT answers with (R225); the stack is its entries, oldest first, so its length is
the depth. -/
inductive InspectValue where
  | byte (u : Byte)
  | word (w : Word)
  | quirks (q : BitVec 3)
  | entries (stack : List Word)
  deriving DecidableEq, Repr

/-- A host transaction's request (R220). -/
inductive Request where
  | reset
  | loadFont
  | loadProgram (bytes : List Byte)
  | advance
  | setQuirks (q : BitVec 3)
  | timerRead (t : Timer)
  | timerWrite (t : Timer) (u : Byte)
  | readDisplay
  | inspect (item : InspectItem)
  deriving DecidableEq, Repr

/-- What a response carries beside its status (R220). -/
inductive ResponseData where
  | none
  | timer (u : Byte)
  | display (d : Display)
  | inspected (value : InspectValue)
  deriving DecidableEq, Repr

/-- A host transaction's response: "Every transaction's response carries a status code" (R208). The
information word is ADVANCE's; in every other response it is the 0 that R208's table gives for OK and
for ProgramTooLarge (log entry 14). -/
structure Response where
  code : Nat
  info : Word
  data : ResponseData
  deriving DecidableEq, Repr

/-- A response of a status code and an information word alone. -/
abbrev Response.status (code : Nat) (info : Word) : Response := ⟨code, info, .none⟩

/-- A status code with its information word and no data (R208). -/
def report (e : Option Error) : Response := .status (statusCode e) (infoWord e)

/-- The response of a read, which cannot err: OK with its data (R208, R220). -/
def reportData (d : ResponseData) : Response := ⟨statusCode none, infoWord none, d⟩

/-- RESET (R240): R36's values. The static parameters stay, and so does the random-byte input, which
is outside the core (R37). -/
def resetCore (s : State) : State := State.resetWith s.cfg s.draws

/-- LOAD_FONT (R243). -/
def loadFont (s : State) : State :=
  setMem s (Memory.writeBytes s.mem s.cfg.fontBase.val s.cfg.fontGlyphs.toList)

/-- LOAD_PROGRAM, or its error; the size check comes before any write (R246, R247). -/
def loadProgram (bytes : List Byte) (s : State) : Except Error State :=
  if memSize < programBase.toNat + bytes.length then .error .programTooLarge
  else .ok (setMem s (Memory.writeBytes s.mem programBase.toNat bytes))

/-- TIMER_READ (R222). -/
def readTimer (t : Timer) (s : State) : Byte :=
  match t with
  | .dt => s.dt
  | .st => s.st

/-- TIMER_WRITE (R222). -/
def writeTimer (t : Timer) (u : Byte) (s : State) : State :=
  match t with
  | .dt => setDt s u
  | .st => setSt s u

/-- INSPECT (R225). -/
def inspectItem (item : InspectItem) (s : State) : InspectValue :=
  match item with
  | .v x => .byte (readV s x)
  | .pc => .word s.pc
  | .i => .word s.i
  | .timer t => .byte (readTimer t s)
  | .q => .quirks s.q
  | .stack => .entries s.stack
  | .mem a => .byte (Memory.read s.mem a.val)

/-- Answer a transaction whose next state is an outcome of the machine with a response. -/
def answer (o : Host.Outcome State Fault Refusal) (r : Response) :
    Host.Outcome (State × Response) Fault Refusal :=
  match o with
  | .next t => .next (t, r)
  | .fault f => .fault f
  | .refused f => .refused f

/-- One transaction: the state after it and its response (R220, R221). -/
def transact (r : Request) (s : State) : Host.Outcome (State × Response) Fault Refusal :=
  match r with
  | .reset => answer (.next (resetCore s)) (report none)
  | .loadFont => answer (.next (loadFont s)) (report none)
  | .loadProgram bytes => answer (settle s (loadProgram bytes s)) (report (errorOf (loadProgram bytes s)))
  | .advance => answer (step s) (report (advanceError s))
  | .setQuirks q => answer (.next (setQ s q)) (report none)
  | .timerRead t => answer (.next s) (reportData (.timer (readTimer t s)))
  | .timerWrite t u => answer (.next (writeTimer t u s)) (report none)
  | .readDisplay => answer (.next s) (reportData (.display s.disp))
  | .inspect item => answer (.next s) (reportData (.inspected (inspectItem item s)))

/-- A sequence of transactions, one after another (R221): the state after them and their responses. -/
def runHost : List Request → State → Host.Outcome (State × List Response) Fault Refusal
  | [], s => .next (s, [])
  | r :: rs, s =>
    match transact r s with
    | .next (t, a) =>
      match runHost rs t with
      | .next (u, as) => .next (u, a :: as)
      | .fault f => .fault f
      | .refused f => .refused f
    | .fault f => .fault f
    | .refused f => .refused f

end Sys2Proof.Machine
end

