-- ==== Sys2Proof/Safety.lean ====
section
/-! DEFINITION. The invariants of the core, what counts as an error-free advance, and the terms in
which claims describe a result. -/

namespace Sys2Proof.Machine

/-! ### Invariants and error-free runs -/

/-- The memory is in canonical form and the call stack holds at most STACK_DEPTH entries (R20, R29). -/
abbrev State.Legal (s : State) : Prop := Memory.wf s.mem ∧ s.stack.length ≤ s.cfg.stackDepth

/-- The pc bounds of R27: no pc above 0x10FE, no return address above 4096. -/
abbrev State.PcBounded (s : State) : Prop := s.pc.toNat ≤ 0x10FE ∧ ∀ a ∈ s.stack, a.toNat ≤ 4096

/-- An ADVANCE from `s` answers status OK (R208). -/
abbrev State.AdvancesOk (s : State) : Prop := advanceError s = none

/-- Every piece of state has its reset value (R36). -/
structure State.HasResetValues (t : State) : Prop where
  v : ∀ x, readV t x = 0
  pc : t.pc = 0x200
  i : t.i = 0
  stack : t.stack = []
  mem : ∀ a, Memory.read t.mem a = 0
  disp : ∀ k : Fin 256, t.disp.get k = 0
  dt : t.dt = 0
  st : t.st = 0
  q : t.q = 0b000

/-! ### How a result is described -/

/-- `exec i s` answers the next state `t` and the ADVANCE reports no error. The second clause is
needed because an error answers a next state too (R205; log entry 1). -/
def CompletesAs (i : Instr) (s t : State) : Prop :=
  exec i s = .next t ∧ instrError i s = none

/-- `exec i s` answers a next state without an error, in which only general registers may differ from
`s`, and in which register `r` reads `f r`. Every other field, memory included, is as in `s`. -/
def CompletesWithRegisters (i : Instr) (s : State) (f : Reg → Byte) : Prop :=
  ∃ t, CompletesAs i s t ∧ t = { s with v := t.v } ∧ ∀ r, readV t r = f r

/-- `exec i s`, met with `pc = pc0 + 2`, ends in the error `e`: the state stays as it is (R205) and
the ADVANCE reports `e`. -/
def EndsInError (i : Instr) (s : State) (e : Error) : Prop :=
  exec i s = .next s ∧ instrError i s = some e

/-- The pc after an instruction that runs from `s` without an error (R25); `s` is the state before the
fetch, so `s.pc` is `pc0`. -/
def nextPc (i : Instr) (s : State) : Word :=
  match i with
  | .jp nnn => nnn
  | .call nnn => nnn
  | .jpV0 nnn => nnn + (if s.q.getLsbD 2 then readV s (fieldX nnn) else readV s 0).setWidth 16
  | .ret => s.stack.getLast?.getD (s.pc + 2)
  | .seByte x nn => if readV s x = nn then s.pc + 4 else s.pc + 2
  | .sneByte x nn => if readV s x = nn then s.pc + 2 else s.pc + 4
  | .seReg x y => if readV s x = readV s y then s.pc + 4 else s.pc + 2
  | .sneReg x y => if readV s x = readV s y then s.pc + 2 else s.pc + 4
  | .cls | .ldByte _ _ | .addByte _ _ | .ldReg _ _ | .orReg _ _ | .andReg _ _ | .xorReg _ _
  | .addReg _ _ | .subReg _ _ | .shrReg _ _ | .subnReg _ _ | .shlReg _ _ | .ldI _ | .rnd _ _
  | .drw _ _ _ | .ldVxDt _ | .ldDtVx _ | .ldStVx _ | .addI _ | .ldF _ | .ldB _ | .ldMemVx _
  | .ldVxMem _ => s.pc + 2

/-- Whether the sprite at `base`, drawn `h` rows high from the anchor (x0, y0), has a set bit on the
pixel (col, row) (R173, R175). -/
def spriteCovers (m : Memory) (base x0 y0 h row col : Nat) : Bool :=
  decide (y0 ≤ row ∧ row < y0 + h ∧ x0 ≤ col ∧ col < x0 + 8) &&
    (Memory.read m (base + (row - y0))).getLsbD (7 - (col - x0))

/-- Whether `DRW Vx, Vy, n` from `s` draws a set sprite bit on the pixel (col, row): anchor
`V[x] mod 64`, `V[y] mod 32` (R172), rows below the bottom edge not drawn (R173). -/
def drawsPixel (s : State) (x y : Reg) (n row col : Nat) : Bool :=
  spriteCovers s.mem s.i.toNat ((readV s x).toNat % 64) ((readV s y).toNat % 32)
    (min n (32 - (readV s y).toNat % 32)) row col

/-- The sprite rows that `DRW Vx, Vy, n` draws from `s` lie in memory (R174). -/
abbrev SpriteInMemory (s : State) (y : Reg) (n : Nat) : Prop :=
  n = 0 ∨ s.i.toNat + min n (32 - (readV s y).toNat % 32) ≤ 4096

end Sys2Proof.Machine
end

