-- ==== Sys2Proof/Certificates/Slice0/Obligations.lean ====
section
/-! DEFINITION. The statements for the provers, one per `def Obligations.<Name> : Prop`.
Results are written with exact natural-number arithmetic and with reads of registers, bytes and
pixels. `exec i s` is step 4 of the advance cycle, so `s.pc` is `pc0 + 2` there (R76); in a
statement about `step s` or `advanceError s`, `s.pc` is `pc0`. `t = { s with f := t.f }` says that
every field of the state but `f` is as in `s`. A pixel is written as a bit of a display byte, by R30:
byte `k` holds columns `8 (k mod 8)` to `8 (k mod 8) + 7` of row `k / 8`, the leftmost in bit 7. -/

open Sys2Proof Sys2Proof.Machine

/-! ### Reset -/

/-- R36 and R240: RESET gives every piece of state its reset value, keeps the static parameters and
answers OK; and the state the machine starts in has those values too, with the default parameters of
R6 and R245. The zeros of the timers and of the quirk register are the spec's decisions D8 and D9; the
defaults are its decisions D2, D10 and D13, and that the machine starts with them is log entry 4. -/
def Obligations.ResetGivesEveryResetValue : Prop :=
  State.reset.HasResetValues ∧
  (State.reset.cfg.fontBase.val = 0x10 ∧ State.reset.cfg.stackDepth = 16 ∧
    State.reset.cfg.addSetsCarry = true ∧
    State.reset.cfg.fontGlyphs.toList =
      [0xF0, 0x90, 0x90, 0x90, 0xF0] ++ [0x20, 0x60, 0x20, 0x20, 0x70] ++
      [0xF0, 0x10, 0xF0, 0x80, 0xF0] ++ [0xF0, 0x10, 0xF0, 0x10, 0xF0] ++
      [0x90, 0x90, 0xF0, 0x10, 0x10] ++ [0xF0, 0x80, 0xF0, 0x10, 0xF0] ++
      [0xF0, 0x80, 0xF0, 0x90, 0xF0] ++ [0xF0, 0x10, 0x20, 0x40, 0x40] ++
      [0xF0, 0x90, 0xF0, 0x90, 0xF0] ++ [0xF0, 0x90, 0xF0, 0x10, 0xF0] ++
      [0xF0, 0x90, 0xF0, 0x90, 0x90] ++ [0xE0, 0x90, 0xE0, 0x90, 0xE0] ++
      [0xF0, 0x80, 0x80, 0x80, 0xF0] ++ [0xE0, 0x90, 0x90, 0x90, 0xE0] ++
      [0xF0, 0x80, 0xF0, 0x80, 0xF0] ++ [0xF0, 0x80, 0xF0, 0x80, 0x80]) ∧
  ∀ s : State, ∃ t, transact .reset s = .next (t, .status 0 0) ∧ t.HasResetValues ∧ t.cfg = s.cfg

/-- The reset state meets both invariants of this file. -/
def Obligations.ResetMeetsInvariants : Prop := State.reset.Legal ∧ State.reset.PcBounded

/-! ### Encoding and decoding -/

/-- Words written out from the patterns of R80, one or two of every family, decode as they should. -/
def Obligations.WrittenWordsDecode : Prop :=
  decode 0x00E0 = .ok .cls ∧ decode 0x00EE = .ok .ret ∧ decode 0x1234 = .ok (.jp 0x234) ∧
  decode 0x3A7F = .ok (.seByte 10 0x7F) ∧ decode 0x9120 = .ok (.sneReg 1 2) ∧
  decode 0x80F6 = .ok (.shrReg 0 15) ∧ decode 0xC30F = .ok (.rnd 3 0x0F) ∧
  decode 0xDAB5 = .ok (.drw 10 11 5) ∧ decode 0xF318 = .ok (.ldStVx 3) ∧
  decode 0xFE65 = .ok (.ldVxMem 14) ∧ decode 0x5121 = .error (.unknownInstruction 0x5121)

/-- R80: the whole opcode map. A word that matches a row's `match` under its `mask` is that row's
instruction, with `x = w[11:8]`, `y = w[7:4]`, `n = w[3:0]`, `nn = w[7:0]`, `nnn = w[11:0]` (R72). -/
def Obligations.OpcodeMapDecodes : Prop :=
  ∀ (w : Word) (x y : Reg) (n : Nat) (nn : Byte) (nnn : Word),
    x.val = w.toNat / 256 % 16 → y.val = w.toNat / 16 % 16 → n = w.toNat % 16 →
    nn.toNat = w.toNat % 256 → nnn.toNat = w.toNat % 4096 →
    (w &&& 0xFFFF = 0x00E0 → decode w = .ok .cls) ∧
    (w &&& 0xFFFF = 0x00EE → decode w = .ok .ret) ∧
    (w &&& 0xF000 = 0x1000 → decode w = .ok (.jp nnn)) ∧
    (w &&& 0xF000 = 0x2000 → decode w = .ok (.call nnn)) ∧
    (w &&& 0xF000 = 0x3000 → decode w = .ok (.seByte x nn)) ∧
    (w &&& 0xF000 = 0x4000 → decode w = .ok (.sneByte x nn)) ∧
    (w &&& 0xF00F = 0x5000 → decode w = .ok (.seReg x y)) ∧
    (w &&& 0xF00F = 0x9000 → decode w = .ok (.sneReg x y)) ∧
    (w &&& 0xF000 = 0x6000 → decode w = .ok (.ldByte x nn)) ∧
    (w &&& 0xF000 = 0x7000 → decode w = .ok (.addByte x nn)) ∧
    (w &&& 0xF00F = 0x8000 → decode w = .ok (.ldReg x y)) ∧
    (w &&& 0xF00F = 0x8001 → decode w = .ok (.orReg x y)) ∧
    (w &&& 0xF00F = 0x8002 → decode w = .ok (.andReg x y)) ∧
    (w &&& 0xF00F = 0x8003 → decode w = .ok (.xorReg x y)) ∧
    (w &&& 0xF00F = 0x8004 → decode w = .ok (.addReg x y)) ∧
    (w &&& 0xF00F = 0x8005 → decode w = .ok (.subReg x y)) ∧
    (w &&& 0xF00F = 0x8006 → decode w = .ok (.shrReg x y)) ∧
    (w &&& 0xF00F = 0x8007 → decode w = .ok (.subnReg x y)) ∧
    (w &&& 0xF00F = 0x800E → decode w = .ok (.shlReg x y)) ∧
    (w &&& 0xF000 = 0xA000 → decode w = .ok (.ldI nnn)) ∧
    (w &&& 0xF000 = 0xB000 → decode w = .ok (.jpV0 nnn)) ∧
    (w &&& 0xF000 = 0xC000 → decode w = .ok (.rnd x nn)) ∧
    (w &&& 0xF000 = 0xD000 → decode w = .ok (.drw x y n)) ∧
    (w &&& 0xF0FF = 0xF007 → decode w = .ok (.ldVxDt x)) ∧
    (w &&& 0xF0FF = 0xF015 → decode w = .ok (.ldDtVx x)) ∧
    (w &&& 0xF0FF = 0xF018 → decode w = .ok (.ldStVx x)) ∧
    (w &&& 0xF0FF = 0xF01E → decode w = .ok (.addI x)) ∧
    (w &&& 0xF0FF = 0xF029 → decode w = .ok (.ldF x)) ∧
    (w &&& 0xF0FF = 0xF033 → decode w = .ok (.ldB x)) ∧
    (w &&& 0xF0FF = 0xF055 → decode w = .ok (.ldMemVx x)) ∧
    (w &&& 0xF0FF = 0xF065 → decode w = .ok (.ldVxMem x))

/-- R86: the encodings the document does not describe are UnknownInstruction: `0NNN` but for two
words, `5XYN` and `9XYN` with `n` not 0, `8XYN` with `n` in 8 to D or F, every `EXNN`, and `FXNN` but
for eight sub-opcodes. -/
def Obligations.UndescribedWordsAreUnknown : Prop :=
  ∀ w : Word,
    (w.toNat / 4096 = 0 ∧ w.toNat ≠ 0x0E0 ∧ w.toNat ≠ 0x0EE) ∨
    ((w.toNat / 4096 = 5 ∨ w.toNat / 4096 = 9) ∧ w.toNat % 16 ≠ 0) ∨
    (w.toNat / 4096 = 8 ∧ w.toNat % 16 ∈ [0x8, 0x9, 0xA, 0xB, 0xC, 0xD, 0xF]) ∨
    w.toNat / 4096 = 0xE ∨
    (w.toNat / 4096 = 0xF ∧ w.toNat % 256 ∉ [0x07, 0x15, 0x18, 0x1E, 0x29, 0x33, 0x55, 0x65]) →
    decode w = .error (.unknownInstruction w)

/-- Decoding is total (R81): every word is accepted by one row of the opcode map, whose instruction it
then is, and by no row with another mask or pattern; or it is accepted by none and is
UnknownInstruction. -/
def Obligations.DecodingIsTotal : Prop :=
  ∀ w : Word,
    (∃ r ∈ opcodeMap, r.accepts w = true ∧ decode w = .ok (r.build w) ∧
      ∀ t ∈ opcodeMap, t.accepts w = true → t.mask = r.mask ∧ t.pattern = r.pattern) ∨
    ((∀ r ∈ opcodeMap, r.accepts w = false) ∧ decode w = .error (.unknownInstruction w))

/-- Every well-formed instruction, with every operand at every value its encoding admits, is read
back from its own word, and from its own two bytes whatever bytes follow. -/
def Obligations.DecodeOfEncode : Prop :=
  ∀ (i : Instr) (rest : List Byte), i.wellFormed = true →
    decode (encode i) = .ok i ∧ decodeBytes (encodeBytes i ++ rest) = .ok (i, rest)

/-- Every word that decodes is the encoding of what it decodes to, and that instruction is
well-formed: no bit of a word is dropped. -/
def Obligations.EncodeOfDecode : Prop :=
  ∀ (w : Word) (i : Instr), decode w = .ok i → i.wellFormed = true ∧ encode i = w

/-! ### The advance cycle -/

/-- When the bytes at the program counter, high byte first, decode to an instruction, a step is that
instruction's exec with the pc moved past the word (R51, R75, R76), and the error the ADVANCE reports
is that instruction's. That the report is computed beside the step from the same checks is the model's
choice (log entry 2), on the spec's decisions D4, D5 and D25. -/
def Obligations.StepRunsDecodedInstruction : Prop :=
  ∀ (s : State) (w : Word) (i : Instr), s.pc.toNat < 4095 →
    w.toNat = (Memory.read s.mem s.pc.toNat).toNat * 256 + (Memory.read s.mem (s.pc.toNat + 1)).toNat →
    decode w = .ok i →
    step s = exec i { s with pc := s.pc + 2 } ∧ advanceError s = instrError i { s with pc := s.pc + 2 }

/-- R57: at a pc of 4095 or more the fetch fails with ProgramCounterOutOfBounds(pc0) and no state
changes, `pc` included. -/
def Obligations.FetchOutOfBoundsChangesNothing : Prop :=
  ∀ s : State, 4095 ≤ s.pc.toNat →
    step s = .next s ∧ advanceError s = some (.programCounterOutOfBounds s.pc)

/-- R85: a word that matches no row is stepped over and reported, and nothing else changes. That the
word is always reported is the spec's decision D5. -/
def Obligations.UnknownWordIsSteppedOver : Prop :=
  ∀ (s : State) (w : Word), s.pc.toNat < 4095 →
    w.toNat = (Memory.read s.mem s.pc.toNat).toNat * 256 + (Memory.read s.mem (s.pc.toNat + 1)).toNat →
    decode w = .error (.unknownInstruction w) →
    step s = .next { s with pc := s.pc + 2 } ∧ advanceError s = some (.unknownInstruction w)

/-- No step stops the machine: "None of them stops the core" (R200). -/
def Obligations.StepAlwaysAnswersNext : Prop := ∀ s : State, ∃ t, step s = .next t

/-- R25: the pc after an ADVANCE, for every kind of instruction and every error. The pc after an error
of the execute step is the spec's decision D4. -/
def Obligations.PcAfterAdvance : Prop :=
  ∀ s t : State, step s = .next t →
    (4095 ≤ s.pc.toNat → t.pc = s.pc) ∧
    (∀ w, fetch s = .ok w → decode w = .error (.unknownInstruction w) → t.pc = s.pc + 2) ∧
    (∀ w i, fetch s = .ok w → decode w = .ok i →
      t.pc = if advanceError s = none then nextPc i s else s.pc + 2)

/-- R205: the whole state change of a transaction that ends in an error, for each of the six. The states
are the spec's decisions D4 and D21; that an error ends in a next state is log entry 1. -/
def Obligations.StateAfterEachError : Prop :=
  (∀ (s : State) (e : Error), advanceError s = some e →
    step s = .next (match e with
      | .programCounterOutOfBounds _ => s
      | .unknownInstruction _ => { s with pc := s.pc + 2 }
      | .stackUnderflow _ => { s with pc := s.pc + 2 }
      | .stackOverflow _ => { s with pc := s.pc + 2 }
      | .memoryOutOfBounds _ => { s with pc := s.pc + 2 }
      | .programTooLarge => s)) ∧
  (∀ (s : State) (bytes : List Byte), 4096 < 0x200 + bytes.length →
    transact (.loadProgram bytes) s = .next (s, .status 6 0))

/-- The host may issue ADVANCE any number of times after ProgramCounterOutOfBounds: each one answers the
same error with the same pc, and the state stays as it is (R212). -/
def Obligations.FailingPcRepeats : Prop :=
  ∀ (s : State) (k : Nat), 4095 ≤ s.pc.toNat →
    runHost (List.replicate k .advance) s = .next (s, List.replicate k (.status 1 s.pc))

/-- A jump to itself leaves the state unchanged and reports no error (R250). -/
def Obligations.JumpToItselfHalts : Prop :=
  ∀ (s : State) (w : Word), fetch s = .ok w → w.toNat = 0x1000 + s.pc.toNat →
    step s = .next s ∧ advanceError s = none

/-! ### Control transfer and skips -/

/-- R101: RET pops the last return address into pc; on an empty stack it ends in StackUnderflow, in the
state of the spec's decision D4. -/
def Obligations.ReturnPopsIntoPc : Prop :=
  ∀ s : State,
    (∀ (l : List Word) (a : Word), s.stack = l ++ [a] →
      exec .ret s = .next { s with pc := a, stack := l } ∧ instrError .ret s = none) ∧
    (s.stack = [] → EndsInError .ret s (.stackUnderflow (s.pc - 2)))

/-- R103: CALL pushes the address after it and jumps; on a full stack it ends in StackOverflow, which
is the spec's decision D2. -/
def Obligations.CallPushesAndJumps : Prop :=
  ∀ (s : State) (nnn : Word),
    (s.stack.length ≠ s.cfg.stackDepth →
      exec (.call nnn) s = .next { s with pc := nnn, stack := s.stack ++ [s.pc] } ∧
      instrError (.call nnn) s = none) ∧
    (s.stack.length = s.cfg.stackDepth → EndsInError (.call nnn) s (.stackOverflow (s.pc - 2)))

/-- R102: JP sets pc to `nnn`, odd or not, changes nothing else and has no exception. An `nnn` of 4096
or more is in no encoding; that JP has this meaning there too is log entry 8. -/
def Obligations.JumpSetsPc : Prop :=
  ∀ (s : State) (nnn : Word), CompletesAs (.jp nnn) s { s with pc := nnn }

/-- R108: JP V0 sets pc to the exact sum of `nnn` and V0, or of `nnn` and the register named by the top
nibble of `nnn` when `Q.jump` is on. That the register is `w[11:8]` and that the sum is not reduced to
12 bits are the spec's decisions D16 and D20. -/
def Obligations.JumpWithOffset : Prop :=
  ∀ (s : State) (nnn : Word), nnn.toNat < 4096 →
    ∃ t, CompletesAs (.jpV0 nnn) s t ∧ t = { s with pc := t.pc } ∧
      (s.q.getLsbD 2 = false → t.pc.toNat = nnn.toNat + (readV s 0).toNat) ∧
      (∀ x : Reg, s.q.getLsbD 2 = true → x.val = nnn.toNat / 256 →
        t.pc.toNat = nnn.toNat + (readV s x).toNat)

/-- R104 to R107: a skip adds 2 more to pc exactly when its condition holds, changes nothing else and
has no exception. -/
def Obligations.SkipsAddTwoWhenConditionHolds : Prop :=
  ∀ (s : State) (x y : Reg) (nn : Byte),
    CompletesAs (.seByte x nn) s
      { s with pc := if readV s x = nn then s.pc + 2 else s.pc } ∧
    CompletesAs (.sneByte x nn) s
      { s with pc := if readV s x = nn then s.pc else s.pc + 2 } ∧
    CompletesAs (.seReg x y) s
      { s with pc := if readV s x = readV s y then s.pc + 2 else s.pc } ∧
    CompletesAs (.sneReg x y) s
      { s with pc := if readV s x = readV s y then s.pc else s.pc + 2 }

/-! ### Register loads and the ALU -/

/-- R122, R123 and R124: the loads and the immediate add write only VX and have no exception; no flag
is written. -/
def Obligations.LoadsAndImmediateAdd : Prop :=
  ∀ (s : State) (x y : Reg) (nn : Byte),
    CompletesWithRegisters (.ldByte x nn) s (fun r => if r = x then nn else readV s r) ∧
    CompletesWithRegisters (.ldReg x y) s (fun r => if r = x then readV s y else readV s r) ∧
    CompletesWithRegisters (.addByte x nn) s (fun r =>
      if r = x then BitVec.ofNat 8 ((readV s x).toNat + nn.toNat) else readV s r)

/-- R125, R126 and R127: the bitwise operations, bit by bit; VF is not reset (the spec's decision
D27). -/
def Obligations.BitwiseOperations : Prop :=
  ∀ (s : State) (x y : Reg), ∃ f g h : Reg → Byte,
    CompletesWithRegisters (.orReg x y) s f ∧
    CompletesWithRegisters (.andReg x y) s g ∧
    CompletesWithRegisters (.xorReg x y) s h ∧
    (∀ r, r ≠ x → f r = readV s r ∧ g r = readV s r ∧ h r = readV s r) ∧
    ∀ b < 8,
      (f x).getLsbD b = ((readV s x).getLsbD b || (readV s y).getLsbD b) ∧
      (g x).getLsbD b = ((readV s x).getLsbD b && (readV s y).getLsbD b) ∧
      (h x).getLsbD b = ((readV s x).getLsbD b != (readV s y).getLsbD b)

/-- R128: the sum modulo 256 in VX; with ADD_SETS_CARRY, VF is 1 exactly when the exact sum exceeds
255, unless VX is VF; without it VF is not written. The parameter and the write order are the spec's
decisions D10 and D11. -/
def Obligations.AddRegisters : Prop :=
  ∀ (s : State) (x y : Reg),
    CompletesWithRegisters (.addReg x y) s (fun r =>
      if r = x then BitVec.ofNat 8 ((readV s x).toNat + (readV s y).toNat)
      else if r = VF ∧ s.cfg.addSetsCarry = true then
        (if 255 < (readV s x).toNat + (readV s y).toNat then 1 else 0)
      else readV s r)

/-- R129 and R131: the difference modulo 256 in VX; VF is 1 exactly when the minuend is strictly
greater, unless VX is VF (the spec's decision D11). -/
def Obligations.SubtractRegisters : Prop :=
  ∀ (s : State) (x y : Reg),
    CompletesWithRegisters (.subReg x y) s (fun r =>
      if r = x then BitVec.ofNat 8 (256 + (readV s x).toNat - (readV s y).toNat)
      else if r = VF then (if (readV s y).toNat < (readV s x).toNat then 1 else 0)
      else readV s r) ∧
    CompletesWithRegisters (.subnReg x y) s (fun r =>
      if r = x then BitVec.ofNat 8 (256 + (readV s y).toNat - (readV s x).toNat)
      else if r = VF then (if (readV s x).toNat < (readV s y).toNat then 1 else 0)
      else readV s r)

/-- R130 and R132: the source, VY or VX when `Q.shift` is on, shifted by one; VF is the bit shifted
out, unless VX is VF (the spec's decision D11). -/
def Obligations.ShiftByOne : Prop :=
  ∀ (s : State) (x y : Reg) (src : Byte),
    src = (if s.q.getLsbD 0 = true then readV s x else readV s y) →
    CompletesWithRegisters (.shrReg x y) s (fun r =>
      if r = x then BitVec.ofNat 8 (src.toNat / 2)
      else if r = VF then BitVec.ofNat 8 (src.toNat % 2) else readV s r) ∧
    CompletesWithRegisters (.shlReg x y) s (fun r =>
      if r = x then BitVec.ofNat 8 (src.toNat * 2 % 256)
      else if r = VF then BitVec.ofNat 8 (src.toNat / 128) else readV s r)

/-- R133: the port is sampled once, whatever `nn` is, and VX is the sample masked with `nn`. The sample
is the free value `Config.randomByte` at the model's own counter (log entry 5); the statement holds
for every value of the counter and of the sample. -/
def Obligations.RandomByteIsMasked : Prop :=
  ∀ (s : State) (x : Reg) (nn : Byte), ∃ t, CompletesAs (.rnd x nn) s t ∧
    t = { s with v := t.v, draws := s.draws + 1 } ∧
    (∀ r, r ≠ x → readV t r = readV s r) ∧
    ∀ b < 8, (readV t x).getLsbD b = ((Config.randomByte s.draws).getLsbD b && nn.getLsbD b)

/-! ### Index register and memory transfers -/

/-- R151, R152 and R153: the writes of I. FX1E wraps at 16 bits; FX29 does not mask VX, and its sum
never wraps (the spec's decisions D13, D18 and D19; the bound on FONT_BASE is log entry 12). An `nnn`
of 4096 or more is in no encoding (log entry 8). -/
def Obligations.IndexRegisterWrites : Prop :=
  ∀ (s : State) (x : Reg) (nnn : Word),
    CompletesAs (.ldI nnn) s { s with i := nnn } ∧
    (∃ t, CompletesAs (.addI x) s t ∧ t = { s with i := t.i } ∧
      t.i.toNat = (s.i.toNat + (readV s x).toNat) % 65536) ∧
    (∃ t, CompletesAs (.ldF x) s t ∧ t = { s with i := t.i } ∧
      t.i.toNat = s.cfg.fontBase.val + 5 * (readV s x).toNat)

/-- R154: FX33 stores the three decimal digits of VX at I, I+1 and I+2 and changes no other byte, and
nothing but memory; when I + 2 is 4096 or more it ends in MemoryOutOfBounds with the lowest offending
address. The check is the spec's decision D3. Memory is in canonical form, an invariant of the model
(StepKeepsLegal). -/
def Obligations.BcdStore : Prop :=
  ∀ (s : State) (x : Reg), Memory.wf s.mem →
    (s.i.toNat + 2 < 4096 → ∃ t, exec (.ldB x) s = .next t ∧ instrError (.ldB x) s = none ∧
      t = { s with mem := t.mem } ∧
      (Memory.read t.mem s.i.toNat).toNat = (readV s x).toNat / 100 ∧
      (Memory.read t.mem (s.i.toNat + 1)).toNat = (readV s x).toNat / 10 % 10 ∧
      (Memory.read t.mem (s.i.toNat + 2)).toNat = (readV s x).toNat % 10 ∧
      ∀ a, a < s.i.toNat ∨ s.i.toNat + 2 < a → Memory.read t.mem a = Memory.read s.mem a) ∧
    (4096 ≤ s.i.toNat + 2 →
      EndsInError (.ldB x) s (.memoryOutOfBounds (if 4096 ≤ s.i.toNat then s.i else 4096)))

/-- R155: FX55 stores V0 to VX at I to I + X and changes no other byte; I becomes I + X + 1 unless
`Q.loadstore` is on; when I + X is 4096 or more it ends in MemoryOutOfBounds (the spec's decision
D3). -/
def Obligations.RegisterStore : Prop :=
  ∀ (s : State) (x : Reg), Memory.wf s.mem →
    (s.i.toNat + x.val < 4096 → ∃ t, exec (.ldMemVx x) s = .next t ∧
      instrError (.ldMemVx x) s = none ∧ t = { s with mem := t.mem, i := t.i } ∧
      t.i.toNat = (if s.q.getLsbD 1 = true then s.i.toNat else s.i.toNat + x.val + 1) ∧
      (∀ k : Reg, k.val ≤ x.val → Memory.read t.mem (s.i.toNat + k.val) = readV s k) ∧
      ∀ a, a < s.i.toNat ∨ s.i.toNat + x.val < a → Memory.read t.mem a = Memory.read s.mem a) ∧
    (4096 ≤ s.i.toNat + x.val →
      EndsInError (.ldMemVx x) s (.memoryOutOfBounds (if 4096 ≤ s.i.toNat then s.i else 4096)))

/-- R156: FX65 loads V0 to VX from I to I + X and changes no other register and no memory; I becomes
I + X + 1 unless `Q.loadstore` is on; when I + X is 4096 or more it ends in MemoryOutOfBounds (the
spec's decision D3). -/
def Obligations.RegisterLoad : Prop :=
  ∀ (s : State) (x : Reg),
    (s.i.toNat + x.val < 4096 → ∃ t, exec (.ldVxMem x) s = .next t ∧
      instrError (.ldVxMem x) s = none ∧ t = { s with v := t.v, i := t.i } ∧
      t.i.toNat = (if s.q.getLsbD 1 = true then s.i.toNat else s.i.toNat + x.val + 1) ∧
      (∀ k : Reg, k.val ≤ x.val → readV t k = Memory.read s.mem (s.i.toNat + k.val)) ∧
      (∀ k : Reg, x.val < k.val → readV t k = readV s k)) ∧
    (4096 ≤ s.i.toNat + x.val →
      EndsInError (.ldVxMem x) s (.memoryOutOfBounds (if 4096 ≤ s.i.toNat then s.i else 4096)))

/-- FX55, then any change of V0 to VX, then FX65 with the same X and the same starting I, restores
every one of those registers (R156, the document's round-trip property). -/
def Obligations.StoreThenLoadRestores : Prop :=
  ∀ (s t u : State) (x : Reg) (v : RegFile), Memory.wf s.mem → s.i.toNat + x.val < 4096 →
    exec (.ldMemVx x) s = .next t → exec (.ldVxMem x) { t with v := v, i := s.i } = .next u →
    ∀ k : Reg, k.val ≤ x.val → readV u k = readV s k

/-- A byte written by FX55 is seen by a later fetch that reads it, with nothing in between (R63): at
every pc inside the stored range the fetched word is the two stored registers, high byte first. -/
def Obligations.FetchSeesStoredBytes : Prop :=
  ∀ (s t : State) (x k j : Reg), Memory.wf s.mem → s.i.toNat + x.val < 4096 →
    exec (.ldMemVx x) s = .next t → j.val = k.val + 1 → j.val ≤ x.val →
    ∃ w, fetch { t with pc := s.i + BitVec.ofNat 16 k.val } = .ok w ∧
      w.toNat = (readV s k).toNat * 256 + (readV s j).toNat

/-! ### Display -/

/-- R170: CLS turns every pixel off, changes nothing else and has no exception. -/
def Obligations.ClearTurnsEveryPixelOff : Prop :=
  ∀ s : State, ∃ t, CompletesAs .cls s t ∧ t = { s with disp := t.disp } ∧
    (∀ k : Fin 256, t.disp.get k = 0) ∧
    ∀ row < 32, ∀ col < 64, readPixel t.disp (row * 64 + col) = false

/-- R171, R173 and R175: DXYN inverts exactly the pixels its sprite covers inside the display, and
leaves every other pixel as it was. The pixels are the bits of the display bytes in the layout of R30,
whose bit order is the spec's decision D6. -/
def Obligations.SpriteInvertsCoveredPixels : Prop :=
  ∀ (s : State) (x y : Reg) (n : Nat), SpriteInMemory s y n →
    ∃ t, exec (.drw x y n) s = .next t ∧ instrError (.drw x y n) s = none ∧
      ∀ (k : Fin 256) (c : Fin 8), (t.disp.get k).getLsbD (7 - c.val) =
        ((s.disp.get k).getLsbD (7 - c.val) != drawsPixel s x y n (k.val / 8) (k.val % 8 * 8 + c.val))

/-- R176: VF ends as 1 if a set sprite bit was drawn onto a pixel that was on, and 0 otherwise, also
when VF names the coordinates. -/
def Obligations.SpriteCollisionFlag : Prop :=
  ∀ (s : State) (x y : Reg) (n : Nat), SpriteInMemory s y n →
    ∃ t, exec (.drw x y n) s = .next t ∧
      ((∃ (k : Fin 256) (c : Fin 8), drawsPixel s x y n (k.val / 8) (k.val % 8 * 8 + c.val) = true ∧
        (s.disp.get k).getLsbD (7 - c.val) = true) → readV t VF = 1) ∧
      (¬ (∃ (k : Fin 256) (c : Fin 8), drawsPixel s x y n (k.val / 8) (k.val % 8 * 8 + c.val) = true ∧
        (s.disp.get k).getLsbD (7 - c.val) = true) → readV t VF = 0)

/-- R178: DXYN changes only VF and the display buffer. -/
def Obligations.SpriteFrame : Prop :=
  ∀ (s t : State) (x y : Reg) (n : Nat), exec (.drw x y n) s = .next t →
    t = { s with v := t.v, disp := t.disp } ∧ ∀ r, r ≠ VF → readV t r = readV s r

/-- R174: when a row that would be drawn lies at address 4096 or more, DXYN ends in
MemoryOutOfBounds with the lowest offending address and changes nothing, VF included; rows that are
not drawn are not checked. The bounds check is the spec's decision D3. -/
def Obligations.SpriteOutOfBounds : Prop :=
  ∀ (s : State) (x y : Reg) (n : Nat),
    (¬ SpriteInMemory s y n →
      EndsInError (.drw x y n) s (.memoryOutOfBounds (if 4096 ≤ s.i.toNat then s.i else 4096))) ∧
    (SpriteInMemory s y n → instrError (.drw x y n) s = none)

/-- R177: height zero draws nothing, reads no memory and so never errs; it sets VF to 0 (the spec's
decision D7). -/
def Obligations.SpriteOfHeightZero : Prop :=
  ∀ (s : State) (x y : Reg), instrError (.drw x y 0) s = none ∧
    CompletesWithRegisters (.drw x y 0) s (fun r => if r = VF then 0 else readV s r)

/-- Drawing the same sprite twice at the same place restores every byte of the display. The second draw
gives VF = 1 exactly when a set sprite bit lies on a pixel that was off before the first draw: that is
what the algorithm of R171 does (log entry 17). -/
def Obligations.SpriteDrawnTwiceRestores : Prop :=
  ∀ (s t u : State) (x y : Reg) (n : Nat), SpriteInMemory s y n → x ≠ VF → y ≠ VF →
    exec (.drw x y n) s = .next t → exec (.drw x y n) t = .next u →
    u.disp = s.disp ∧
    (readV u VF = 1 ↔ ∃ (k : Fin 256) (c : Fin 8),
      drawsPixel s x y n (k.val / 8) (k.val % 8 * 8 + c.val) = true ∧
      (s.disp.get k).getLsbD (7 - c.val) = false) ∧
    (readV u VF = 0 ∨ readV u VF = 1)

/-- EXPECTED TO FAIL (log entry 17). The last sentence of R176 as it is written: on any display, the
second draw of a sprite gives VF = 1 exactly when a set sprite bit lies inside the display. It disagrees
with the algorithm of R171 when every covered pixel was on before the first draw: the first draw turns
them all off, so the second meets none that is on. -/
def Obligations.SecondDrawAlwaysCollides : Prop :=
  ∀ (s t u : State) (x y : Reg) (n : Nat), SpriteInMemory s y n → x ≠ VF → y ≠ VF →
    exec (.drw x y n) s = .next t → exec (.drw x y n) t = .next u →
    (readV u VF = 1 ↔ ∃ row < 32, ∃ col < 64, drawsPixel s x y n row col = true)

/-! ### Timers -/

/-- R190, R191 and R192: FX07 reads DT into VX, FX15 writes VX to DT, FX18 writes VX to ST. Which
of them does which is the spec's decision D12, from general knowledge (K2). -/
def Obligations.TimerInstructions : Prop :=
  ∀ (s : State) (x : Reg),
    CompletesWithRegisters (.ldVxDt x) s (fun r => if r = x then s.dt else readV s r) ∧
    CompletesAs (.ldDtVx x) s { s with dt := readV s x } ∧
    CompletesAs (.ldStVx x) s { s with st := readV s x }

/-! ### Rules about the whole machine -/

/-- Only ANNN, FX1E, FX29, and FX55 and FX65 when `Q.loadstore` is off, write I (R28). -/
def Obligations.WritersOfIndex : Prop :=
  ∀ s t : State, step s = .next t → t.i ≠ s.i →
    ∃ w i, fetch s = .ok w ∧ decode w = .ok i ∧
      ((∃ a, i = .ldI a) ∨ (∃ x, i = .addI x) ∨ (∃ x, i = .ldF x) ∨
        (s.q.getLsbD 1 = false ∧ ∃ x, i = .ldMemVx x ∨ i = .ldVxMem x))

/-- Only 00E0 and DXYN write the display buffer (R30). -/
def Obligations.WritersOfDisplay : Prop :=
  ∀ s t : State, step s = .next t → t.disp ≠ s.disp →
    ∃ w i, fetch s = .ok w ∧ decode w = .ok i ∧ (i = .cls ∨ ∃ x y n, i = .drw x y n)

/-- 2NNN pushes and 00EE pops; no other instruction writes the call stack (R29). -/
def Obligations.WritersOfCallStack : Prop :=
  ∀ s t : State, step s = .next t → t.stack ≠ s.stack →
    ∃ w, fetch s = .ok w ∧
      ((∃ a, decode w = .ok (.call a) ∧ t.stack = s.stack ++ [s.pc + 2]) ∨
        (decode w = .ok .ret ∧ ∃ a, s.stack = t.stack ++ [a]))

/-- Only FX33 and FX55 write memory, and only bytes from I to I + 15 (R54). -/
def Obligations.WritersOfMemory : Prop :=
  ∀ s t : State, Memory.wf s.mem → step s = .next t →
    ∀ a, Memory.read t.mem a ≠ Memory.read s.mem a →
      ∃ w x, fetch s = .ok w ∧
        ((decode w = .ok (.ldB x) ∧ s.i.toNat ≤ a ∧ a ≤ s.i.toNat + 2) ∨
          (decode w = .ok (.ldMemVx x) ∧ s.i.toNat ≤ a ∧ a ≤ s.i.toNat + x.val))

/-- Whatever instruction runs, the timers change only by FX15 and FX18, and the core never decrements
either (R31, R222). -/
def Obligations.WritersOfTimers : Prop :=
  ∀ s t : State, step s = .next t → t.dt ≠ s.dt ∨ t.st ≠ s.st →
    ∃ w x, fetch s = .ok w ∧
      ((decode w = .ok (.ldDtVx x) ∧ t = { s with pc := s.pc + 2, dt := readV s x }) ∨
        (decode w = .ok (.ldStVx x) ∧ t = { s with pc := s.pc + 2, st := readV s x }))

/-- VF is left alone by every instruction but those that name it as their destination, the flag
writers 8XY5, 8XY6, 8XY7, 8XYE, 8XY4 when ADD_SETS_CARRY, DXYN, and FX65 with X = 15 (R22, R23). -/
def Obligations.WritersOfFlag : Prop :=
  ∀ s t : State, step s = .next t → readV t VF ≠ readV s VF →
    ∃ w i, fetch s = .ok w ∧ decode w = .ok i ∧
      ((∃ u, i = .ldByte VF u ∨ i = .addByte VF u ∨ i = .rnd VF u) ∨
        (∃ y, i = .ldReg VF y ∨ i = .orReg VF y ∨ i = .andReg VF y ∨ i = .xorReg VF y ∨
          i = .addReg VF y) ∨
        (∃ x y, i = .subReg x y ∨ i = .shrReg x y ∨ i = .subnReg x y ∨ i = .shlReg x y) ∨
        (s.cfg.addSetsCarry = true ∧ ∃ x y, i = .addReg x y) ∨
        (∃ x y n, i = .drw x y n) ∨ i = .ldVxDt VF ∨ i = .ldVxMem VF)

/-- No ADVANCE writes the quirk register (R32) or the static parameters (R20), and only RESET and
SET_QUIRKS among the host's transactions write the quirk register. -/
def Obligations.QuirksAndParametersStay : Prop :=
  (∀ s t : State, step s = .next t → t.q = s.q ∧ t.cfg = s.cfg) ∧
  ∀ (r : Request) (s t : State) (a : Response), transact r s = .next (t, a) →
    t.cfg = s.cfg ∧ (t.q ≠ s.q → r = .reset ∨ r = .setQuirks t.q)

/-- No instruction reads ST (R31): two cores that differ only in ST still differ only in ST after an
ADVANCE. -/
def Obligations.SoundTimerIsNeverRead : Prop :=
  ∀ (s t : State) (u : Byte), step s = .next t →
    ∃ t', step { s with st := u } = .next t' ∧ t' = { t with st := t'.st } ∧
      advanceError { s with st := u } = advanceError s

/-- The quirk bits alter only the shifts, FX55, FX65 and BNNN (R32): every other instruction does the
same whatever the quirk register holds, and every instruction, those five too, reports the same error
or none. -/
def Obligations.QuirksAlterOnlyTheirInstructions : Prop :=
  (∀ (s t : State) (q : BitVec 3) (i : Instr), exec i s = .next t →
    (∀ x y, i ≠ .shrReg x y ∧ i ≠ .shlReg x y) → (∀ x, i ≠ .ldMemVx x ∧ i ≠ .ldVxMem x) →
    (∀ a, i ≠ .jpV0 a) →
    exec i { s with q := q } = .next { t with q := q }) ∧
  ∀ (s : State) (q : BitVec 3) (i : Instr), instrError i { s with q := q } = instrError i s

/-! ### Invariants -/

/-- A step keeps memory in canonical form, inside 0 to 4095, and the call stack within STACK_DEPTH. -/
def Obligations.StepKeepsLegal : Prop :=
  ∀ s t : State, s.Legal → step s = .next t → t.Legal

/-- The pc stays at most 0x10FE and every return address at most 4096 (R27), so the pc never wraps at
the top of its 16-bit range. -/
def Obligations.StepKeepsPcBounded : Prop :=
  ∀ s t : State, s.PcBounded → step s = .next t → t.PcBounded

/-- Any sequence of host transactions, ADVANCEs among them, answers every request and keeps both
invariants. -/
def Obligations.HostRunKeepsInvariants : Prop :=
  ∀ (rs : List Request) (s : State), s.Legal → s.PcBounded →
    ∃ t as, runHost rs s = .next (t, as) ∧ as.length = rs.length ∧ t.Legal ∧ t.PcBounded

/-- Two memories in canonical form that read the same at every address are the same list. -/
def Obligations.CanonicalMemoryIsUnique : Prop :=
  ∀ m m' : Memory, Memory.wf m → Memory.wf m' → (∀ a, Memory.read m a = Memory.read m' a) → m = m'

/-! ### Host interface -/

/-- R243: LOAD_FONT copies the 80 glyph bytes to FONT_BASE and on, changes no other byte and no
register, answers OK, and doing it twice reads as doing it once. -/
def Obligations.LoadFontCopiesGlyphs : Prop :=
  ∀ s : State, Memory.wf s.mem → ∃ t, transact .loadFont s = .next (t, .status 0 0) ∧
    t = { s with mem := t.mem } ∧
    (∀ k : Fin 80, Memory.read t.mem (s.cfg.fontBase.val + k.val) = s.cfg.fontGlyphs.get k) ∧
    (∀ a, a < s.cfg.fontBase.val ∨ s.cfg.fontBase.val + 79 < a →
      Memory.read t.mem a = Memory.read s.mem a) ∧
    ∃ t', transact .loadFont t = .next (t', .status 0 0) ∧
      ∀ a, Memory.read t'.mem a = Memory.read t.mem a

/-- R246 and R247: LOAD_PROGRAM copies its bytes to 0x200 and on and changes nothing else; more than
3584 bytes is ProgramTooLarge, and then nothing is written (the spec's decision D21). -/
def Obligations.LoadProgramCopiesOrRefuses : Prop :=
  ∀ (s : State) (bytes : List Byte), Memory.wf s.mem →
    (bytes.length ≤ 3584 → ∃ t, transact (.loadProgram bytes) s = .next (t, .status 0 0) ∧
      t = { s with mem := t.mem } ∧
      (∀ k (h : k < bytes.length), Memory.read t.mem (0x200 + k) = bytes[k]) ∧
      ∀ a, a < 0x200 ∨ 0x200 + bytes.length ≤ a → Memory.read t.mem a = Memory.read s.mem a) ∧
    (3584 < bytes.length → transact (.loadProgram bytes) s = .next (s, .status 6 0))

/-- The timer ports, the quirk port, the display port and the inspection port (R222, R223, R225,
R226): writes store what they are given and nothing else, reads change nothing, and every response
carries the status code of OK (R208). The set of transactions and the codes are the spec's decisions
D1 and D5. -/
def Obligations.HostPortsReadAndWrite : Prop :=
  ∀ (s : State) (u : Byte) (q : BitVec 3),
    transact (.timerRead .dt) s = .next (s, ⟨0, 0, .timer s.dt⟩) ∧
    transact (.timerRead .st) s = .next (s, ⟨0, 0, .timer s.st⟩) ∧
    transact (.timerWrite .dt u) s = .next ({ s with dt := u }, .status 0 0) ∧
    transact (.timerWrite .st u) s = .next ({ s with st := u }, .status 0 0) ∧
    transact (.setQuirks q) s = .next ({ s with q := q }, .status 0 0) ∧
    transact .readDisplay s = .next (s, ⟨0, 0, .display s.disp⟩) ∧
    (∀ x, transact (.inspect (.v x)) s = .next (s, ⟨0, 0, .inspected (.byte (readV s x))⟩)) ∧
    (∀ a : Fin 4096, transact (.inspect (.mem a)) s =
      .next (s, ⟨0, 0, .inspected (.byte (Memory.read s.mem a.val))⟩)) ∧
    transact (.inspect .pc) s = .next (s, ⟨0, 0, .inspected (.word s.pc)⟩) ∧
    transact (.inspect .i) s = .next (s, ⟨0, 0, .inspected (.word s.i)⟩) ∧
    transact (.inspect (.timer .dt)) s = .next (s, ⟨0, 0, .inspected (.byte s.dt)⟩) ∧
    transact (.inspect (.timer .st)) s = .next (s, ⟨0, 0, .inspected (.byte s.st)⟩) ∧
    transact (.inspect .q) s = .next (s, ⟨0, 0, .inspected (.quirks s.q)⟩) ∧
    transact (.inspect .stack) s = .next (s, ⟨0, 0, .inspected (.entries s.stack)⟩)

/-- ADVANCE answers with the status code and information word of R208, and only with the codes 0 to 5;
its state is the step's. The code numbers are the spec's decision D5. -/
def Obligations.AdvanceRespondsWithStatus : Prop :=
  ∀ s t : State, step s = .next t → ∃ code info,
    transact .advance s = .next (t, .status code info) ∧
    ((advanceError s = none ∧ code = 0 ∧ info = 0) ∨
      (advanceError s = some (.programCounterOutOfBounds info) ∧ code = 1 ∧ info = s.pc) ∨
      (advanceError s = some (.stackUnderflow info) ∧ code = 2 ∧ info = s.pc) ∨
      (advanceError s = some (.unknownInstruction info) ∧ code = 3 ∧ fetch s = .ok info) ∨
      (advanceError s = some (.stackOverflow info) ∧ code = 4 ∧ info = s.pc) ∨
      (advanceError s = some (.memoryOutOfBounds info) ∧ code = 5 ∧
        info = if 4096 ≤ s.i.toNat then s.i else 4096))

/-- The model's placing of a word (log entry 9): from every state with memory in canonical form, the
step after `withFetchWord` runs exactly the instruction of the placed word. -/
def Obligations.PlacedWordRunsNext : Prop :=
  ∀ (s : State) (w : Nat) (i : Instr), Memory.wf s.mem → decodeTableWord 16 w = some i →
    (s.pc.toNat < 4095 → (s.withFetchWord 16 w).pc = s.pc) ∧
    step (s.withFetchWord 16 w) =
      exec i { s.withFetchWord 16 w with pc := (s.withFetchWord 16 w).pc + 2 }
end

