-- ==== Sys2Proof/Laws/State.lean ====
section
/-! SUPPORT. One lemma per field per update of State, each true by rfl; then the updates that choose. -/

namespace Sys2Proof.Machine

/-! ### writeV writes only v -/

@[simp] theorem writeV_pc (s : State) (x : Reg) (u : Byte) : (writeV s x u).pc = s.pc := rfl
@[simp] theorem writeV_i (s : State) (x : Reg) (u : Byte) : (writeV s x u).i = s.i := rfl
@[simp] theorem writeV_stack (s : State) (x : Reg) (u : Byte) : (writeV s x u).stack = s.stack := rfl
@[simp] theorem writeV_dt (s : State) (x : Reg) (u : Byte) : (writeV s x u).dt = s.dt := rfl
@[simp] theorem writeV_st (s : State) (x : Reg) (u : Byte) : (writeV s x u).st = s.st := rfl
@[simp] theorem writeV_mem (s : State) (x : Reg) (u : Byte) : (writeV s x u).mem = s.mem := rfl
@[simp] theorem writeV_disp (s : State) (x : Reg) (u : Byte) : (writeV s x u).disp = s.disp := rfl
@[simp] theorem writeV_q (s : State) (x : Reg) (u : Byte) : (writeV s x u).q = s.q := rfl
@[simp] theorem writeV_draws (s : State) (x : Reg) (u : Byte) : (writeV s x u).draws = s.draws := rfl
@[simp] theorem writeV_cfg (s : State) (x : Reg) (u : Byte) : (writeV s x u).cfg = s.cfg := rfl

/-! ### setV writes only v -/

@[simp] theorem setV_v (s : State) (w : RegFile) : (setV s w).v = w := rfl
@[simp] theorem setV_pc (s : State) (w : RegFile) : (setV s w).pc = s.pc := rfl
@[simp] theorem setV_i (s : State) (w : RegFile) : (setV s w).i = s.i := rfl
@[simp] theorem setV_stack (s : State) (w : RegFile) : (setV s w).stack = s.stack := rfl
@[simp] theorem setV_dt (s : State) (w : RegFile) : (setV s w).dt = s.dt := rfl
@[simp] theorem setV_st (s : State) (w : RegFile) : (setV s w).st = s.st := rfl
@[simp] theorem setV_mem (s : State) (w : RegFile) : (setV s w).mem = s.mem := rfl
@[simp] theorem setV_disp (s : State) (w : RegFile) : (setV s w).disp = s.disp := rfl
@[simp] theorem setV_q (s : State) (w : RegFile) : (setV s w).q = s.q := rfl
@[simp] theorem setV_draws (s : State) (w : RegFile) : (setV s w).draws = s.draws := rfl
@[simp] theorem setV_cfg (s : State) (w : RegFile) : (setV s w).cfg = s.cfg := rfl

/-! ### setPc writes only pc -/

@[simp] theorem setPc_v (s : State) (a : Word) : (setPc s a).v = s.v := rfl
@[simp] theorem setPc_pc (s : State) (a : Word) : (setPc s a).pc = a := rfl
@[simp] theorem setPc_i (s : State) (a : Word) : (setPc s a).i = s.i := rfl
@[simp] theorem setPc_stack (s : State) (a : Word) : (setPc s a).stack = s.stack := rfl
@[simp] theorem setPc_dt (s : State) (a : Word) : (setPc s a).dt = s.dt := rfl
@[simp] theorem setPc_st (s : State) (a : Word) : (setPc s a).st = s.st := rfl
@[simp] theorem setPc_mem (s : State) (a : Word) : (setPc s a).mem = s.mem := rfl
@[simp] theorem setPc_disp (s : State) (a : Word) : (setPc s a).disp = s.disp := rfl
@[simp] theorem setPc_q (s : State) (a : Word) : (setPc s a).q = s.q := rfl
@[simp] theorem setPc_draws (s : State) (a : Word) : (setPc s a).draws = s.draws := rfl
@[simp] theorem setPc_cfg (s : State) (a : Word) : (setPc s a).cfg = s.cfg := rfl

/-! ### setI writes only i -/

@[simp] theorem setI_v (s : State) (a : Word) : (setI s a).v = s.v := rfl
@[simp] theorem setI_pc (s : State) (a : Word) : (setI s a).pc = s.pc := rfl
@[simp] theorem setI_i (s : State) (a : Word) : (setI s a).i = a := rfl
@[simp] theorem setI_stack (s : State) (a : Word) : (setI s a).stack = s.stack := rfl
@[simp] theorem setI_dt (s : State) (a : Word) : (setI s a).dt = s.dt := rfl
@[simp] theorem setI_st (s : State) (a : Word) : (setI s a).st = s.st := rfl
@[simp] theorem setI_mem (s : State) (a : Word) : (setI s a).mem = s.mem := rfl
@[simp] theorem setI_disp (s : State) (a : Word) : (setI s a).disp = s.disp := rfl
@[simp] theorem setI_q (s : State) (a : Word) : (setI s a).q = s.q := rfl
@[simp] theorem setI_draws (s : State) (a : Word) : (setI s a).draws = s.draws := rfl
@[simp] theorem setI_cfg (s : State) (a : Word) : (setI s a).cfg = s.cfg := rfl

/-! ### setStack writes only stack -/

@[simp] theorem setStack_v (s : State) (l : List Word) : (setStack s l).v = s.v := rfl
@[simp] theorem setStack_pc (s : State) (l : List Word) : (setStack s l).pc = s.pc := rfl
@[simp] theorem setStack_i (s : State) (l : List Word) : (setStack s l).i = s.i := rfl
@[simp] theorem setStack_stack (s : State) (l : List Word) : (setStack s l).stack = l := rfl
@[simp] theorem setStack_dt (s : State) (l : List Word) : (setStack s l).dt = s.dt := rfl
@[simp] theorem setStack_st (s : State) (l : List Word) : (setStack s l).st = s.st := rfl
@[simp] theorem setStack_mem (s : State) (l : List Word) : (setStack s l).mem = s.mem := rfl
@[simp] theorem setStack_disp (s : State) (l : List Word) : (setStack s l).disp = s.disp := rfl
@[simp] theorem setStack_q (s : State) (l : List Word) : (setStack s l).q = s.q := rfl
@[simp] theorem setStack_draws (s : State) (l : List Word) : (setStack s l).draws = s.draws := rfl
@[simp] theorem setStack_cfg (s : State) (l : List Word) : (setStack s l).cfg = s.cfg := rfl

/-! ### setDt writes only dt -/

@[simp] theorem setDt_v (s : State) (u : Byte) : (setDt s u).v = s.v := rfl
@[simp] theorem setDt_pc (s : State) (u : Byte) : (setDt s u).pc = s.pc := rfl
@[simp] theorem setDt_i (s : State) (u : Byte) : (setDt s u).i = s.i := rfl
@[simp] theorem setDt_stack (s : State) (u : Byte) : (setDt s u).stack = s.stack := rfl
@[simp] theorem setDt_dt (s : State) (u : Byte) : (setDt s u).dt = u := rfl
@[simp] theorem setDt_st (s : State) (u : Byte) : (setDt s u).st = s.st := rfl
@[simp] theorem setDt_mem (s : State) (u : Byte) : (setDt s u).mem = s.mem := rfl
@[simp] theorem setDt_disp (s : State) (u : Byte) : (setDt s u).disp = s.disp := rfl
@[simp] theorem setDt_q (s : State) (u : Byte) : (setDt s u).q = s.q := rfl
@[simp] theorem setDt_draws (s : State) (u : Byte) : (setDt s u).draws = s.draws := rfl
@[simp] theorem setDt_cfg (s : State) (u : Byte) : (setDt s u).cfg = s.cfg := rfl

/-! ### setSt writes only st -/

@[simp] theorem setSt_v (s : State) (u : Byte) : (setSt s u).v = s.v := rfl
@[simp] theorem setSt_pc (s : State) (u : Byte) : (setSt s u).pc = s.pc := rfl
@[simp] theorem setSt_i (s : State) (u : Byte) : (setSt s u).i = s.i := rfl
@[simp] theorem setSt_stack (s : State) (u : Byte) : (setSt s u).stack = s.stack := rfl
@[simp] theorem setSt_dt (s : State) (u : Byte) : (setSt s u).dt = s.dt := rfl
@[simp] theorem setSt_st (s : State) (u : Byte) : (setSt s u).st = u := rfl
@[simp] theorem setSt_mem (s : State) (u : Byte) : (setSt s u).mem = s.mem := rfl
@[simp] theorem setSt_disp (s : State) (u : Byte) : (setSt s u).disp = s.disp := rfl
@[simp] theorem setSt_q (s : State) (u : Byte) : (setSt s u).q = s.q := rfl
@[simp] theorem setSt_draws (s : State) (u : Byte) : (setSt s u).draws = s.draws := rfl
@[simp] theorem setSt_cfg (s : State) (u : Byte) : (setSt s u).cfg = s.cfg := rfl

/-! ### setMem writes only mem -/

@[simp] theorem setMem_v (s : State) (m : Memory) : (setMem s m).v = s.v := rfl
@[simp] theorem setMem_pc (s : State) (m : Memory) : (setMem s m).pc = s.pc := rfl
@[simp] theorem setMem_i (s : State) (m : Memory) : (setMem s m).i = s.i := rfl
@[simp] theorem setMem_stack (s : State) (m : Memory) : (setMem s m).stack = s.stack := rfl
@[simp] theorem setMem_dt (s : State) (m : Memory) : (setMem s m).dt = s.dt := rfl
@[simp] theorem setMem_st (s : State) (m : Memory) : (setMem s m).st = s.st := rfl
@[simp] theorem setMem_mem (s : State) (m : Memory) : (setMem s m).mem = m := rfl
@[simp] theorem setMem_disp (s : State) (m : Memory) : (setMem s m).disp = s.disp := rfl
@[simp] theorem setMem_q (s : State) (m : Memory) : (setMem s m).q = s.q := rfl
@[simp] theorem setMem_draws (s : State) (m : Memory) : (setMem s m).draws = s.draws := rfl
@[simp] theorem setMem_cfg (s : State) (m : Memory) : (setMem s m).cfg = s.cfg := rfl

/-! ### setDisp writes only disp -/

@[simp] theorem setDisp_v (s : State) (d : Display) : (setDisp s d).v = s.v := rfl
@[simp] theorem setDisp_pc (s : State) (d : Display) : (setDisp s d).pc = s.pc := rfl
@[simp] theorem setDisp_i (s : State) (d : Display) : (setDisp s d).i = s.i := rfl
@[simp] theorem setDisp_stack (s : State) (d : Display) : (setDisp s d).stack = s.stack := rfl
@[simp] theorem setDisp_dt (s : State) (d : Display) : (setDisp s d).dt = s.dt := rfl
@[simp] theorem setDisp_st (s : State) (d : Display) : (setDisp s d).st = s.st := rfl
@[simp] theorem setDisp_mem (s : State) (d : Display) : (setDisp s d).mem = s.mem := rfl
@[simp] theorem setDisp_disp (s : State) (d : Display) : (setDisp s d).disp = d := rfl
@[simp] theorem setDisp_q (s : State) (d : Display) : (setDisp s d).q = s.q := rfl
@[simp] theorem setDisp_draws (s : State) (d : Display) : (setDisp s d).draws = s.draws := rfl
@[simp] theorem setDisp_cfg (s : State) (d : Display) : (setDisp s d).cfg = s.cfg := rfl

/-! ### setQ writes only q -/

@[simp] theorem setQ_v (s : State) (q : BitVec 3) : (setQ s q).v = s.v := rfl
@[simp] theorem setQ_pc (s : State) (q : BitVec 3) : (setQ s q).pc = s.pc := rfl
@[simp] theorem setQ_i (s : State) (q : BitVec 3) : (setQ s q).i = s.i := rfl
@[simp] theorem setQ_stack (s : State) (q : BitVec 3) : (setQ s q).stack = s.stack := rfl
@[simp] theorem setQ_dt (s : State) (q : BitVec 3) : (setQ s q).dt = s.dt := rfl
@[simp] theorem setQ_st (s : State) (q : BitVec 3) : (setQ s q).st = s.st := rfl
@[simp] theorem setQ_mem (s : State) (q : BitVec 3) : (setQ s q).mem = s.mem := rfl
@[simp] theorem setQ_disp (s : State) (q : BitVec 3) : (setQ s q).disp = s.disp := rfl
@[simp] theorem setQ_q (s : State) (q : BitVec 3) : (setQ s q).q = q := rfl
@[simp] theorem setQ_draws (s : State) (q : BitVec 3) : (setQ s q).draws = s.draws := rfl
@[simp] theorem setQ_cfg (s : State) (q : BitVec 3) : (setQ s q).cfg = s.cfg := rfl

/-! ### countDraw writes only draws -/

@[simp] theorem countDraw_v (s : State) : (countDraw s).v = s.v := rfl
@[simp] theorem countDraw_pc (s : State) : (countDraw s).pc = s.pc := rfl
@[simp] theorem countDraw_i (s : State) : (countDraw s).i = s.i := rfl
@[simp] theorem countDraw_stack (s : State) : (countDraw s).stack = s.stack := rfl
@[simp] theorem countDraw_dt (s : State) : (countDraw s).dt = s.dt := rfl
@[simp] theorem countDraw_st (s : State) : (countDraw s).st = s.st := rfl
@[simp] theorem countDraw_mem (s : State) : (countDraw s).mem = s.mem := rfl
@[simp] theorem countDraw_disp (s : State) : (countDraw s).disp = s.disp := rfl
@[simp] theorem countDraw_q (s : State) : (countDraw s).q = s.q := rfl
@[simp] theorem countDraw_draws (s : State) : (countDraw s).draws = s.draws + 1 := rfl
@[simp] theorem countDraw_cfg (s : State) : (countDraw s).cfg = s.cfg := rfl

/-! ### advancePc writes only pc -/

@[simp] theorem advancePc_v (s : State) : (advancePc s).v = s.v := rfl
@[simp] theorem advancePc_pc (s : State) : (advancePc s).pc = s.pc + 2 := rfl
@[simp] theorem advancePc_i (s : State) : (advancePc s).i = s.i := rfl
@[simp] theorem advancePc_stack (s : State) : (advancePc s).stack = s.stack := rfl
@[simp] theorem advancePc_dt (s : State) : (advancePc s).dt = s.dt := rfl
@[simp] theorem advancePc_st (s : State) : (advancePc s).st = s.st := rfl
@[simp] theorem advancePc_mem (s : State) : (advancePc s).mem = s.mem := rfl
@[simp] theorem advancePc_disp (s : State) : (advancePc s).disp = s.disp := rfl
@[simp] theorem advancePc_q (s : State) : (advancePc s).q = s.q := rfl
@[simp] theorem advancePc_draws (s : State) : (advancePc s).draws = s.draws := rfl
@[simp] theorem advancePc_cfg (s : State) : (advancePc s).cfg = s.cfg := rfl

/-! ### skipIf and bumpIndex -/

@[simp] theorem skipIf_v (c : Bool) (s : State) : (skipIf c s).v = s.v := by
  cases c <;> rfl
@[simp] theorem skipIf_pc (c : Bool) (s : State) :
    (skipIf c s).pc = if c then s.pc + 2 else s.pc := by cases c <;> rfl
@[simp] theorem skipIf_i (c : Bool) (s : State) : (skipIf c s).i = s.i := by
  cases c <;> rfl
@[simp] theorem skipIf_stack (c : Bool) (s : State) : (skipIf c s).stack = s.stack := by
  cases c <;> rfl
@[simp] theorem skipIf_dt (c : Bool) (s : State) : (skipIf c s).dt = s.dt := by
  cases c <;> rfl
@[simp] theorem skipIf_st (c : Bool) (s : State) : (skipIf c s).st = s.st := by
  cases c <;> rfl
@[simp] theorem skipIf_mem (c : Bool) (s : State) : (skipIf c s).mem = s.mem := by
  cases c <;> rfl
@[simp] theorem skipIf_disp (c : Bool) (s : State) : (skipIf c s).disp = s.disp := by
  cases c <;> rfl
@[simp] theorem skipIf_q (c : Bool) (s : State) : (skipIf c s).q = s.q := by
  cases c <;> rfl
@[simp] theorem skipIf_draws (c : Bool) (s : State) : (skipIf c s).draws = s.draws := by
  cases c <;> rfl
@[simp] theorem skipIf_cfg (c : Bool) (s : State) : (skipIf c s).cfg = s.cfg := by
  cases c <;> rfl
@[simp] theorem bumpIndex_v (x : Reg) (s : State) : (bumpIndex x s).v = s.v := by
  unfold bumpIndex; split <;> rfl
@[simp] theorem bumpIndex_pc (x : Reg) (s : State) : (bumpIndex x s).pc = s.pc := by
  unfold bumpIndex; split <;> rfl
@[simp] theorem bumpIndex_i (x : Reg) (s : State) :
    (bumpIndex x s).i = if quirkLoadstore s then s.i else s.i + BitVec.ofNat 16 (x.val + 1) := by
  unfold bumpIndex; split <;> rfl
@[simp] theorem bumpIndex_stack (x : Reg) (s : State) : (bumpIndex x s).stack = s.stack := by
  unfold bumpIndex; split <;> rfl
@[simp] theorem bumpIndex_dt (x : Reg) (s : State) : (bumpIndex x s).dt = s.dt := by
  unfold bumpIndex; split <;> rfl
@[simp] theorem bumpIndex_st (x : Reg) (s : State) : (bumpIndex x s).st = s.st := by
  unfold bumpIndex; split <;> rfl
@[simp] theorem bumpIndex_mem (x : Reg) (s : State) : (bumpIndex x s).mem = s.mem := by
  unfold bumpIndex; split <;> rfl
@[simp] theorem bumpIndex_disp (x : Reg) (s : State) : (bumpIndex x s).disp = s.disp := by
  unfold bumpIndex; split <;> rfl
@[simp] theorem bumpIndex_q (x : Reg) (s : State) : (bumpIndex x s).q = s.q := by
  unfold bumpIndex; split <;> rfl
@[simp] theorem bumpIndex_draws (x : Reg) (s : State) : (bumpIndex x s).draws = s.draws := by
  unfold bumpIndex; split <;> rfl
@[simp] theorem bumpIndex_cfg (x : Reg) (s : State) : (bumpIndex x s).cfg = s.cfg := by
  unfold bumpIndex; split <;> rfl
@[simp] theorem writeFlagged_pc (s : State) (x : Reg) (f u : Byte) :
    (writeFlagged s x f u).pc = s.pc := rfl
@[simp] theorem writeFlagged_i (s : State) (x : Reg) (f u : Byte) :
    (writeFlagged s x f u).i = s.i := rfl
@[simp] theorem writeFlagged_stack (s : State) (x : Reg) (f u : Byte) :
    (writeFlagged s x f u).stack = s.stack := rfl
@[simp] theorem writeFlagged_dt (s : State) (x : Reg) (f u : Byte) :
    (writeFlagged s x f u).dt = s.dt := rfl
@[simp] theorem writeFlagged_st (s : State) (x : Reg) (f u : Byte) :
    (writeFlagged s x f u).st = s.st := rfl
@[simp] theorem writeFlagged_mem (s : State) (x : Reg) (f u : Byte) :
    (writeFlagged s x f u).mem = s.mem := rfl
@[simp] theorem writeFlagged_disp (s : State) (x : Reg) (f u : Byte) :
    (writeFlagged s x f u).disp = s.disp := rfl
@[simp] theorem writeFlagged_q (s : State) (x : Reg) (f u : Byte) :
    (writeFlagged s x f u).q = s.q := rfl
@[simp] theorem writeFlagged_draws (s : State) (x : Reg) (f u : Byte) :
    (writeFlagged s x f u).draws = s.draws := rfl
@[simp] theorem writeFlagged_cfg (s : State) (x : Reg) (f u : Byte) :
    (writeFlagged s x f u).cfg = s.cfg := rfl

end Sys2Proof.Machine
end

