-- ==== Sys2Proof/Laws/Display.lean ====
section
/-! SUPPORT. Pixels: reading after a flip, and that the pixels determine the packed buffer (R30). -/

namespace Sys2Proof.Machine

/-- One bit of a byte set: it is on in its own place only. -/
theorem bit_of_byte : ∀ a < 8, ∀ b < 8, (1#8 <<< (7 - a)).getLsbD (7 - b) = decide (b = a) := by
  decide

/-- Reading a pixel after flipping one: the same pixel is inverted, every other is as before. -/
theorem readPixel_flipPixel (d : Display) {p p' : Nat} (hp : p < 2048) :
    readPixel (flipPixel d p) p' = (readPixel d p' ^^ decide (p' = p)) := by
  have hb : p / 8 < 256 := by omega
  by_cases h : p' / 8 = p / 8
  · have e : (flipPixel d p)[p' / 8]? = some ((d[p / 8]?.getD 0) ^^^ (1#8 <<< (7 - p % 8))) := by
      rw [flipPixel, h, Vector.getElem?_setIfInBounds_self]
      simp [hb]
    rw [readPixel, e, readPixel, h, Option.getD_some, BitVec.getLsbD_xor]
    have hbit : (1#8 <<< (7 - p % 8)).getLsbD (7 - p' % 8) = decide (p' % 8 = p % 8) :=
      bit_of_byte (p % 8) (by omega) (p' % 8) (by omega)
    have hp' : (p' = p) ↔ (p' % 8 = p % 8) := by omega
    rw [hbit, decide_eq_decide.2 hp']
  · have e : (flipPixel d p)[p' / 8]? = d[p' / 8]? := by
      rw [flipPixel, Vector.getElem?_setIfInBounds_ne (by omega)]
    have hne : ¬ p' = p := fun hh => h (by rw [hh])
    rw [readPixel, e, readPixel]
    simp [hne]

/-- The layout of R30: bit `7 - c` of byte `k` is the pixel in row `k / 8`, column `k mod 8 * 8 + c`. -/
theorem readPixel_of_byte (d : Display) (k : Fin 256) (c : Fin 8) :
    readPixel d (k.val / 8 * 64 + (k.val % 8 * 8 + c.val)) = (d.get k).getLsbD (7 - c.val) := by
  have e1 : (k.val / 8 * 64 + (k.val % 8 * 8 + c.val)) / 8 = k.val := by omega
  have e2 : (k.val / 8 * 64 + (k.val % 8 * 8 + c.val)) % 8 = c.val := by omega
  rw [readPixel, e1, e2, Vector.getElem?_eq_getElem k.isLt, Option.getD_some]
  rfl

/-- Some pixel of a display is `b` and has a property of its row and column, exactly when some bit of
some byte is, in the layout of R30. -/
theorem exists_pixel_iff_exists_bit (P : Nat → Nat → Prop) (d : Display) (b : Bool) :
    (∃ row < 32, ∃ col < 64, P row col ∧ readPixel d (row * 64 + col) = b) ↔
    ∃ (k : Fin 256) (c : Fin 8), P (k.val / 8) (k.val % 8 * 8 + c.val) ∧
      (d.get k).getLsbD (7 - c.val) = b := by
  constructor
  · rintro ⟨r, hr, c, hc, h1, h2⟩
    refine ⟨⟨r * 8 + c / 8, by omega⟩, ⟨c % 8, by omega⟩, ?_⟩
    rw [← readPixel_of_byte]
    have e1 : (r * 8 + c / 8) / 8 = r := by omega
    have e2 : (r * 8 + c / 8) % 8 * 8 + c % 8 = c := by omega
    simp only [e1, e2]
    exact ⟨h1, h2⟩
  · rintro ⟨k, c, h1, h2⟩
    rw [← readPixel_of_byte] at h2
    exact ⟨_, by omega, _, by omega, h1, h2⟩

/-- The 2048 pixels determine the 256 bytes (R30). -/
theorem display_ext {d e : Display} (h : ∀ p < 2048, readPixel d p = readPixel e p) : d = e := by
  apply Vector.ext
  intro k hk
  apply BitVec.eq_of_getLsbD_eq
  intro b hb
  have := h (k * 8 + (7 - b)) (by omega)
  have e1 : (k * 8 + (7 - b)) / 8 = k := by omega
  have e2 : 7 - (k * 8 + (7 - b)) % 8 = b := by omega
  rw [readPixel, readPixel, e1, e2] at this
  simpa only [Vector.getElem?_eq_getElem hk, Option.getD_some] using this

theorem readPixel_cleared (p : Nat) : readPixel clearedDisplay p = false := by
  unfold readPixel clearedDisplay
  rw [Vector.getElem?_replicate]
  split <;> simp

end Sys2Proof.Machine
end

