-- ==== Sys2Proof/Laws/Blit.lean ====
section
/-! SUPPORT. What the sprite blit does, in closed form: it inverts exactly the pixels the sprite
covers, and it records a collision exactly when one of them was on (R171 to R176). -/

namespace Sys2Proof.Machine

theorem pixelIndex_inj {row col row' col' : Nat} (hc : col < 64) (hc' : col' < 64) :
    pixelIndex row' col' = pixelIndex row col ↔ row' = row ∧ col' = col := by
  unfold pixelIndex; omega

theorem pixelIndex_lt {row col : Nat} (hr : row < 32) (hc : col < 64) : pixelIndex row col < 2048 := by
  unfold pixelIndex; omega

/-- The first `j` columns of a sprite row. -/
def rowPrefix (b : Byte) (x0 row j : Nat) (acc : Display × Bool) : Display × Bool :=
  (List.range j).foldl (blitPixel b x0 row) acc

theorem rowPrefix_succ (b : Byte) (x0 row j : Nat) (acc : Display × Bool) :
    rowPrefix b x0 row (j + 1) acc = blitPixel b x0 row (rowPrefix b x0 row j acc) j := by
  simp [rowPrefix, List.range_succ, List.foldl_append]

/-- Whether the first `j` columns of a sprite row put a set bit on a pixel. -/
def rowCovers (b : Byte) (x0 row j row' col' : Nat) : Bool :=
  decide (row' = row ∧ x0 ≤ col' ∧ col' < x0 + j) && spriteBit b (col' - x0)

theorem rowCovers_iff {b : Byte} {x0 row j row' col' : Nat} :
    rowCovers b x0 row j row' col' = true ↔
      row' = row ∧ x0 ≤ col' ∧ col' < x0 + j ∧ spriteBit b (col' - x0) = true := by
  simp [rowCovers, and_assoc]

theorem spriteCovers_iff {m : Memory} {base x0 y0 h row col : Nat} :
    spriteCovers m base x0 y0 h row col = true ↔
      y0 ≤ row ∧ row < y0 + h ∧ x0 ≤ col ∧ col < x0 + 8 ∧
        spriteBit (Memory.read m (base + (row - y0))) (col - x0) = true := by
  simp [spriteCovers, spriteBit, and_assoc]

theorem rowCovers_zero (b : Byte) (x0 row row' col' : Nat) :
    rowCovers b x0 row 0 row' col' = false := by
  rw [← Bool.not_eq_true, rowCovers_iff]; omega

theorem spriteCovers_zero (m : Memory) (base x0 y0 row col : Nat) :
    spriteCovers m base x0 y0 0 row col = false := by
  rw [← Bool.not_eq_true, spriteCovers_iff]; omega

theorem rowCovers_succ (b : Byte) {x0 row j row' col' : Nat} :
    rowCovers b x0 row (j + 1) row' col' =
      (rowCovers b x0 row j row' col' ^^ (decide (row' = row ∧ col' = x0 + j) && spriteBit b j)) := by
  unfold rowCovers
  by_cases h : row' = row ∧ col' = x0 + j
  · obtain ⟨rfl, rfl⟩ := h
    simp
  · have e : decide (row' = row ∧ x0 ≤ col' ∧ col' < x0 + (j + 1)) =
        decide (row' = row ∧ x0 ≤ col' ∧ col' < x0 + j) := decide_eq_decide.2 (by omega)
    rw [e, decide_eq_false h]
    simp

theorem rowPrefix_pixel (b : Byte) (x0 : Nat) {row row' col' : Nat} (hr : row < 32) (hc' : col' < 64)
    (j : Nat) (acc : Display × Bool) :
    readPixel (rowPrefix b x0 row j acc).1 (pixelIndex row' col') =
      (readPixel acc.1 (pixelIndex row' col') ^^ rowCovers b x0 row j row' col') := by
  induction j with
  | zero => simp [rowPrefix, rowCovers_zero]
  | succ j ih =>
    rw [rowPrefix_succ, blitPixel, rowCovers_succ, ← Bool.xor_assoc, ← ih]
    split
    · rename_i h
      simp only [Bool.and_eq_true, decide_eq_true_eq] at h
      have e : decide (pixelIndex row' col' = pixelIndex row (x0 + j)) =
          decide (row' = row ∧ col' = x0 + j) := decide_eq_decide.2 (pixelIndex_inj h.1 hc')
      rw [readPixel_flipPixel _ (pixelIndex_lt hr h.1), e, h.2, Bool.and_true]
    · rename_i h
      have : (decide (row' = row ∧ col' = x0 + j) && spriteBit b j) = false := by
        by_contra hh
        simp only [Bool.not_eq_false, Bool.and_eq_true, decide_eq_true_eq] at hh
        apply h
        simp only [Bool.and_eq_true, decide_eq_true_eq]
        exact ⟨by omega, hh.2⟩
      rw [this, Bool.xor_false]

theorem rowPrefix_hit (b : Byte) (x0 : Nat) {row : Nat} (hr : row < 32) (j : Nat)
    (acc : Display × Bool) :
    (rowPrefix b x0 row j acc).2 = true ↔ acc.2 = true ∨
      ∃ col < 64, rowCovers b x0 row j row col = true ∧ readPixel acc.1 (pixelIndex row col) = true := by
  induction j with
  | zero => simp [rowPrefix, rowCovers_zero]
  | succ j ih =>
    have key : (rowPrefix b x0 row (j + 1) acc).2 = true ↔ (rowPrefix b x0 row j acc).2 = true ∨
        (x0 + j < 64 ∧ spriteBit b j = true ∧ readPixel acc.1 (pixelIndex row (x0 + j)) = true) := by
      rw [rowPrefix_succ, blitPixel]
      split
      · rename_i h
        simp only [Bool.and_eq_true, decide_eq_true_eq] at h
        have : rowCovers b x0 row j row (x0 + j) = false := by simp [rowCovers]
        simp [rowPrefix_pixel b x0 hr h.1, this, h]
      · rename_i h
        simp only [Bool.and_eq_true, decide_eq_true_eq] at h
        constructor
        · exact .inl
        · rintro (h' | ⟨h1, h2, -⟩)
          · exact h'
          · exact absurd ⟨h1, h2⟩ h
    rw [key, ih, or_assoc]
    refine or_congr_right ⟨?_, ?_⟩
    · rintro (⟨col, hc, h1, h2⟩ | ⟨h1, h2, h3⟩)
      · obtain ⟨-, hx, hj, hb⟩ := rowCovers_iff.1 h1
        exact ⟨col, hc, rowCovers_iff.2 ⟨rfl, hx, by omega, hb⟩, h2⟩
      · exact ⟨x0 + j, h1, rowCovers_iff.2 ⟨rfl, by omega, by omega, by simpa using h2⟩, h3⟩
    · rintro ⟨col, hc, h1, h2⟩
      obtain ⟨-, hx, hj, hb⟩ := rowCovers_iff.1 h1
      by_cases hcol : col = x0 + j
      · subst hcol
        exact .inr ⟨hc, by simpa using hb, h2⟩
      · exact .inl ⟨col, hc, rowCovers_iff.2 ⟨rfl, hx, by omega, hb⟩, h2⟩

theorem blit_succ (m : Memory) (base x0 y0 h : Nat) (d : Display) :
    blit m base x0 y0 (h + 1) d =
      rowPrefix (Memory.read m (base + h)) x0 (y0 + h) 8 (blit m base x0 y0 h d) := by
  simp [blit, blitRow, rowPrefix, List.range_succ, List.foldl_append]

theorem spriteCovers_succ (m : Memory) (base x0 y0 h row col : Nat) :
    spriteCovers m base x0 y0 (h + 1) row col =
      (spriteCovers m base x0 y0 h row col ^^
        rowCovers (Memory.read m (base + h)) x0 (y0 + h) 8 row col) := by
  unfold spriteCovers rowCovers spriteBit
  by_cases hr : row = y0 + h
  · subst hr
    simp
  · have e : decide (y0 ≤ row ∧ row < y0 + (h + 1) ∧ x0 ≤ col ∧ col < x0 + 8) =
        decide (y0 ≤ row ∧ row < y0 + h ∧ x0 ≤ col ∧ col < x0 + 8) := decide_eq_decide.2 (by omega)
    rw [e]
    simp [hr]

/-- The blit inverts exactly the pixels the sprite covers (R173, R175). -/
theorem blit_pixel (m : Memory) (base x0 y0 : Nat) {h row col : Nat} (hh : y0 + h ≤ 32)
    (hc : col < 64) (d : Display) :
    readPixel (blit m base x0 y0 h d).1 (pixelIndex row col) =
      (readPixel d (pixelIndex row col) ^^ spriteCovers m base x0 y0 h row col) := by
  induction h with
  | zero => simp [blit, spriteCovers_zero]
  | succ h ih =>
    rw [blit_succ, rowPrefix_pixel _ _ (by omega) hc, ih (by omega), spriteCovers_succ, Bool.xor_assoc]

/-- The blit records a collision exactly when a set sprite bit meets a pixel that was on (R176). -/
theorem blit_hit (m : Memory) (base x0 y0 : Nat) {h : Nat} (hh : y0 + h ≤ 32) (d : Display) :
    (blit m base x0 y0 h d).2 = true ↔
      ∃ row < 32, ∃ col < 64, spriteCovers m base x0 y0 h row col = true ∧
        readPixel d (pixelIndex row col) = true := by
  induction h with
  | zero => simp [blit, spriteCovers_zero]
  | succ h ih =>
    rw [blit_succ, rowPrefix_hit _ _ (by omega), ih (by omega)]
    have new : ∀ col, spriteCovers m base x0 y0 h (y0 + h) col = false := fun col => by
      simp [spriteCovers]
    constructor
    · rintro (⟨row, hr, col, hc, h1, h2⟩ | ⟨col, hc, h1, h2⟩)
      · obtain ⟨a1, a2, a3⟩ := spriteCovers_iff.1 h1
        exact ⟨row, hr, col, hc, spriteCovers_iff.2 ⟨a1, by omega, a3⟩, h2⟩
      · rw [blit_pixel _ _ _ _ (by omega) hc, new, Bool.xor_false] at h2
        obtain ⟨-, a1, a2, a3⟩ := rowCovers_iff.1 h1
        exact ⟨y0 + h, by omega, col, hc,
          spriteCovers_iff.2 ⟨by omega, by omega, a1, a2, by simpa using a3⟩, h2⟩
    · rintro ⟨row, hr, col, hc, h1, h2⟩
      obtain ⟨a1, a2, a3, a4, a5⟩ := spriteCovers_iff.1 h1
      by_cases hrow : row = y0 + h
      · subst hrow
        refine .inr ⟨col, hc, rowCovers_iff.2 ⟨rfl, a3, a4, by simpa using a5⟩, ?_⟩
        rw [blit_pixel _ _ _ _ (by omega) hc, new, Bool.xor_false, h2]
      · exact .inl ⟨row, hr, col, hc, spriteCovers_iff.2 ⟨a1, by omega, a3, a4, a5⟩, h2⟩

end Sys2Proof.Machine
end

