-- ==== Sys2Proof/Laws/Decode.lean ====
section
/-! SUPPORT. The fields of the words the encoder builds, what the masks of the opcode map keep, and
that a row which accepts a word is the row the decoder uses. -/

namespace Sys2Proof

/-! ### What a mask keeps -/

theorem and_F000 (w : Word) : w &&& 0xF000#16 = w.extractLsb' 12 4 ++ 0#12 := by
  apply BitVec.eq_of_getLsbD_eq
  intro i hi
  rw [BitVec.getLsbD_append]
  interval_cases i <;> simp

theorem and_F00F (w : Word) :
    w &&& 0xF00F#16 = w.extractLsb' 12 4 ++ 0#8 ++ w.extractLsb' 0 4 := by
  apply BitVec.eq_of_getLsbD_eq
  intro i hi
  rw [BitVec.getLsbD_append, BitVec.getLsbD_append]
  interval_cases i <;> simp

theorem and_F0FF (w : Word) :
    w &&& 0xF0FF#16 = w.extractLsb' 12 4 ++ 0#4 ++ w.extractLsb' 0 8 := by
  apply BitVec.eq_of_getLsbD_eq
  intro i hi
  rw [BitVec.getLsbD_append, BitVec.getLsbD_append]
  interval_cases i <;> simp

theorem and_FFFF (w : Word) : w &&& 0xFFFF#16 = w := by
  apply BitVec.eq_of_getLsbD_eq
  intro i hi
  interval_cases i <;> simp

/-! ### The fields of the built words (R72) -/

theorem op_wordKNNN (k : BitVec 4) (a : Word) : (wordKNNN k a).extractLsb' 12 4 = k := by
  ext i hi
  simp only [wordKNNN, BitVec.getElem_extractLsb', BitVec.getLsbD_append]
  interval_cases i <;> simp

theorem nnn_wordKNNN (k : BitVec 4) (a : Word) :
    (wordKNNN k a).extractLsb' 0 12 = a.setWidth 12 := by
  ext i hi
  simp only [wordKNNN, BitVec.getElem_extractLsb', BitVec.getLsbD_append]
  interval_cases i <;> simp

theorem op_wordKXNN (k : BitVec 4) (x : Reg) (u : Byte) :
    (wordKXNN k x u).extractLsb' 12 4 = k := by
  ext i hi
  simp only [wordKXNN, BitVec.getElem_extractLsb', BitVec.getLsbD_append]
  interval_cases i <;> simp

theorem x_wordKXNN (k : BitVec 4) (x : Reg) (u : Byte) :
    (wordKXNN k x u).extractLsb' 8 4 = regBits x := by
  ext i hi
  simp only [wordKXNN, BitVec.getElem_extractLsb', BitVec.getLsbD_append]
  interval_cases i <;> simp

theorem nn_wordKXNN (k : BitVec 4) (x : Reg) (u : Byte) :
    (wordKXNN k x u).extractLsb' 0 8 = u := by
  ext i hi
  simp only [wordKXNN, BitVec.getElem_extractLsb', BitVec.getLsbD_append]
  interval_cases i <;> simp

theorem op_wordKXYN (k : BitVec 4) (x y : Reg) (n : BitVec 4) :
    (wordKXYN k x y n).extractLsb' 12 4 = k := by
  ext i hi
  simp only [wordKXYN, BitVec.getElem_extractLsb', BitVec.getLsbD_append]
  interval_cases i <;> simp

theorem x_wordKXYN (k : BitVec 4) (x y : Reg) (n : BitVec 4) :
    (wordKXYN k x y n).extractLsb' 8 4 = regBits x := by
  ext i hi
  simp only [wordKXYN, BitVec.getElem_extractLsb', BitVec.getLsbD_append]
  interval_cases i <;> simp

theorem y_wordKXYN (k : BitVec 4) (x y : Reg) (n : BitVec 4) :
    (wordKXYN k x y n).extractLsb' 4 4 = regBits y := by
  ext i hi
  simp only [wordKXYN, BitVec.getElem_extractLsb', BitVec.getLsbD_append]
  interval_cases i <;> simp

theorem n_wordKXYN (k : BitVec 4) (x y : Reg) (n : BitVec 4) :
    (wordKXYN k x y n).extractLsb' 0 4 = n := by
  ext i hi
  simp only [wordKXYN, BitVec.getElem_extractLsb', BitVec.getLsbD_append]
  interval_cases i <;> simp

@[simp] theorem toNat_regBits (x : Reg) : (regBits x).toNat = x.val := by
  simp [regBits]

@[simp] theorem fieldX_wordKXNN (k : BitVec 4) (x : Reg) (u : Byte) :
    fieldX (wordKXNN k x u) = x := Fin.ext (by simp [fieldX, x_wordKXNN])

@[simp] theorem fieldNN_wordKXNN (k : BitVec 4) (x : Reg) (u : Byte) :
    fieldNN (wordKXNN k x u) = u := nn_wordKXNN k x u

@[simp] theorem fieldX_wordKXYN (k : BitVec 4) (x y : Reg) (n : BitVec 4) :
    fieldX (wordKXYN k x y n) = x := Fin.ext (by simp [fieldX, x_wordKXYN])

@[simp] theorem fieldY_wordKXYN (k : BitVec 4) (x y : Reg) (n : BitVec 4) :
    fieldY (wordKXYN k x y n) = y := Fin.ext (by simp [fieldY, y_wordKXYN])

@[simp] theorem fieldN_wordKXYN (k : BitVec 4) (x y : Reg) (n : BitVec 4) :
    fieldN (wordKXYN k x y n) = n.toNat := by simp [fieldN, n_wordKXYN]

/-- The address field of a built word is the operand, when it is a 12-bit address (R73). -/
theorem fieldNNN_wordKNNN (k : BitVec 4) {a : Word} (h : addressFits a) :
    fieldNNN (wordKNNN k a) = a := by
  apply BitVec.eq_of_toNat_eq
  simp only [addressFits, decide_eq_true_eq] at h
  simp only [fieldNNN, nnn_wordKNNN, BitVec.toNat_setWidth]
  omega

theorem addressFits_fieldNNN (w : Word) : addressFits (fieldNNN w) := by
  simp only [addressFits, fieldNNN, BitVec.toNat_setWidth, decide_eq_true_eq]
  have := (w.extractLsb' 0 12).isLt
  omega

theorem heightFits_fieldN (w : Word) : heightFits (fieldN w) :=
  decide_eq_true (w.extractLsb' 0 4).isLt

/-! ### A word is its fields -/

theorem regBits_fieldX (w : Word) : regBits (fieldX w) = w.extractLsb' 8 4 := by
  rw [regBits, fieldX, BitVec.ofNat_toNat, BitVec.setWidth_eq]

theorem regBits_fieldY (w : Word) : regBits (fieldY w) = w.extractLsb' 4 4 := by
  rw [regBits, fieldY, BitVec.ofNat_toNat, BitVec.setWidth_eq]

theorem wordKNNN_fields (w : Word) : wordKNNN (w.extractLsb' 12 4) (fieldNNN w) = w := by
  apply BitVec.eq_of_getLsbD_eq
  intro i hi
  simp only [wordKNNN, fieldNNN, BitVec.getLsbD_append]
  interval_cases i <;> simp

theorem wordKXNN_fields (w : Word) :
    wordKXNN (w.extractLsb' 12 4) (fieldX w) (fieldNN w) = w := by
  apply BitVec.eq_of_getLsbD_eq
  intro i hi
  simp only [wordKXNN, fieldNN, regBits_fieldX, BitVec.getLsbD_append]
  interval_cases i <;> simp

theorem wordKXYN_fields (w : Word) :
    wordKXYN (w.extractLsb' 12 4) (fieldX w) (fieldY w) (w.extractLsb' 0 4) = w := by
  apply BitVec.eq_of_getLsbD_eq
  intro i hi
  simp only [wordKXYN, regBits_fieldX, regBits_fieldY, BitVec.getLsbD_append]
  interval_cases i <;> simp

/-! ### The opcode map as a whole (R80, R81) -/

/-- Two different rows differ in a bit both fix: no word matches both. -/
theorem opcodeMap_disjoint :
    opcodeMap.Pairwise (fun r t => (r.mask &&& t.mask) &&& (r.pattern ^^^ t.pattern) ≠ 0) := by
  decide

/-- A word that one row accepts is accepted by no row that differs from it in a bit both fix. -/
theorem not_accepts_of_disjoint {r t : OpcodeRow} {w : Word} (hr : r.accepts w = true)
    (h : (r.mask &&& t.mask) &&& (r.pattern ^^^ t.pattern) ≠ 0) : t.accepts w = false := by
  by_contra ht
  simp only [OpcodeRow.accepts, beq_iff_eq] at hr
  simp only [OpcodeRow.accepts, beq_iff_eq, Bool.not_eq_false] at ht
  apply h
  rw [← hr, ← ht]
  apply BitVec.eq_of_getLsbD_eq
  intro i hi
  simp only [BitVec.getLsbD_and, BitVec.getLsbD_xor]
  cases w.getLsbD i <;> cases r.mask.getLsbD i <;> cases t.mask.getLsbD i <;> simp

theorem find_of_accepts {l : List OpcodeRow} {r : OpcodeRow} {w : Word}
    (hl : l.Pairwise (fun r t => (r.mask &&& t.mask) &&& (r.pattern ^^^ t.pattern) ≠ 0))
    (hr : r ∈ l) (hw : r.accepts w = true) : l.find? (fun r => r.accepts w) = some r := by
  induction l with
  | nil => simp at hr
  | cons t l ih =>
    rw [List.pairwise_cons] at hl
    rcases List.mem_cons.1 hr with rfl | hr
    · simp [hw]
    · have ht : t.accepts w = false := by
        refine not_accepts_of_disjoint hw ?_
        rw [BitVec.and_comm r.mask, BitVec.xor_comm r.pattern]
        exact hl.1 r hr
      simp only [List.find?_cons, ht]
      exact ih hl.2 hr

/-- A row that accepts a word is the one the decoder uses. -/
theorem decode_of_accepts {r : OpcodeRow} {w : Word} (hr : r ∈ opcodeMap)
    (hw : r.accepts w = true) : decode w = .ok (r.build w) := by
  rw [decode, find_of_accepts opcodeMap_disjoint hr hw]

/-- What the decoder answers comes from a row of the map. -/
theorem row_of_decode {w : Word} {i : Instr} (h : decode w = .ok i) :
    ∃ r ∈ opcodeMap, r.accepts w = true ∧ r.build w = i := by
  unfold decode at h
  split at h
  · rename_i r hr
    exact ⟨r, List.mem_of_find?_eq_some hr, List.find?_some (p := fun r => OpcodeRow.accepts r w) hr, by
      simpa using h⟩
  · simp at h

/-- A word that no row accepts is refused by name (R85). -/
theorem decode_error {w : Word} {e : DecodeError} (h : decode w = .error e) :
    e = .unknownInstruction w ∧ ∀ r ∈ opcodeMap, r.accepts w = false := by
  unfold decode at h
  split at h
  · simp at h
  · rename_i hn
    rw [List.find?_eq_none] at hn
    exact ⟨by simpa using h.symm, fun r hr => by simpa using hn r hr⟩

/-- Everything the decoder answers is well-formed. -/
theorem wellFormed_of_decode {w : Word} {i : Instr} (h : decode w = .ok i) :
    i.wellFormed = true := by
  obtain ⟨r, hr, -, rfl⟩ := row_of_decode h
  simp only [opcodeMap, opcodeRowsFlow, opcodeRowsAlu, opcodeRowsMisc, List.cons_append,
    List.nil_append, List.mem_cons, List.not_mem_nil, or_false] at hr
  rcases hr with rfl | rfl | rfl | rfl | rfl | rfl | rfl | rfl | rfl | rfl | rfl | rfl | rfl | rfl |
    rfl | rfl | rfl | rfl | rfl | rfl | rfl | rfl | rfl | rfl | rfl | rfl | rfl | rfl | rfl | rfl |
    rfl <;> simp [Instr.wellFormed, addressFits_fieldNNN, heightFits_fieldN]

/-- The bytes of a word, put together again (R51). -/
theorem wordOfBytes_bytes (w : Word) : wordOfBytes (w.extractLsb' 8 8) (w.extractLsb' 0 8) = w := by
  apply BitVec.eq_of_getLsbD_eq
  intro i hi
  simp only [wordOfBytes, BitVec.getLsbD_append]
  interval_cases i <;> simp

/-- `w = mem[pc] * 256 + mem[pc + 1]` (R51). -/
theorem toNat_wordOfBytes (high low : Byte) :
    (wordOfBytes high low).toNat = high.toNat * 256 + low.toNat := by
  have := low.isLt
  rw [wordOfBytes, BitVec.toNat_append, Nat.shiftLeft_eq, ← Nat.shiftLeft_eq,
    ← Nat.shiftLeft_add_eq_or_of_lt this, Nat.shiftLeft_eq]

end Sys2Proof
end

