-- ==== Sys2Proof/Laws/Memory.lean ====
section
/-! SUPPORT. Read after write, and that every memory operation keeps the canonical form. -/

namespace Sys2Proof.Machine

@[simp] theorem Memory.read_nil (a : Nat) : Memory.read [] a = 0 := rfl

/-- An address below every listed one reads 0. -/
theorem Memory.read_of_lt {m : Memory} {a : Nat} (h : ∀ c ∈ m, a < c.1) : Memory.read m a = 0 := by
  induction m with
  | nil => rfl
  | cons c m ih =>
    have := h c (by simp)
    rw [Memory.read, if_neg (by omega)]
    exact ih fun d hd => h d (by simp [hd])

theorem Memory.read_insert_ne (m : Memory) {a b : Nat} (u : Byte) (h : b ≠ a) :
    Memory.read (Memory.insert m a u) b = Memory.read m b := by
  induction m with
  | nil => unfold Memory.insert; split <;> simp [Memory.read, h]
  | cons c m ih =>
    obtain ⟨d, w⟩ := c
    unfold Memory.insert
    split
    · split <;> simp [Memory.read, h]
    · split
      · subst_vars
        split <;> simp [Memory.read, h]
      · simp [Memory.read, ih]

theorem Memory.read_insert_same {m : Memory} (a : Nat) (u : Byte) (hm : Memory.wf m) :
    Memory.read (Memory.insert m a u) a = u := by
  induction m with
  | nil => unfold Memory.insert; split <;> simp_all [Memory.read]
  | cons c m ih =>
    obtain ⟨d, w⟩ := c
    obtain ⟨hp, hc⟩ := hm
    rw [List.pairwise_cons] at hp
    have hm' : Memory.wf m := ⟨hp.2, fun e he => hc e (by simp [he])⟩
    unfold Memory.insert
    split
    · rename_i had
      split
      · rename_i hu
        rw [hu]
        exact Memory.read_of_lt (by
          intro e he
          rcases List.mem_cons.1 he with rfl | he
          · exact had
          · exact Nat.lt_trans had (hp.1 e he))
      · simp [Memory.read]
    · split
      · subst_vars
        split
        · rename_i hu
          rw [hu]
          exact Memory.read_of_lt hp.1
        · simp [Memory.read]
      · rename_i h1 h2
        rw [Memory.read, if_neg h2]
        exact ih hm'

/-- Read after write: the byte written, at its own address and nowhere else (R59, R61). -/
theorem Memory.read_write {m : Memory} (a b : Nat) (u : Byte) (hm : Memory.wf m) (ha : a < memSize) :
    Memory.read (Memory.write m a u) b = if b = a then u else Memory.read m b := by
  rw [Memory.write, if_pos ha]
  split
  · subst_vars
    exact Memory.read_insert_same _ u hm
  · rename_i h
    exact Memory.read_insert_ne m u h

theorem Memory.mem_insert {m : Memory} {a : Nat} {u : Byte} {c : Host.Cell}
    (h : c ∈ Memory.insert m a u) : c ∈ m ∨ (c = (a, u) ∧ u ≠ 0) := by
  induction m with
  | nil => unfold Memory.insert at h; split at h <;> simp_all
  | cons d m ih =>
    obtain ⟨d, w⟩ := d
    unfold Memory.insert at h
    split at h
    · split at h <;> simp_all
      tauto
    · split at h
      · split at h <;> simp_all
        tauto
      · rcases List.mem_cons.1 h with rfl | h
        · simp
        · rcases ih h with h | h
          · simp [h]
          · exact .inr h

theorem Memory.wf_insert {m : Memory} {a : Nat} {u : Byte} (hm : Memory.wf m) (ha : a < memSize) :
    Memory.wf (Memory.insert m a u) := by
  refine ⟨?_, fun c hc => ?_⟩
  · induction m with
    | nil => unfold Memory.insert; split <;> simp
    | cons d m ih =>
      obtain ⟨d, w⟩ := d
      obtain ⟨hp, hc⟩ := hm
      have hp' := List.pairwise_cons.1 hp
      unfold Memory.insert
      split
      · rename_i had
        split
        · exact hp
        · refine List.pairwise_cons.2 ⟨fun e he => ?_, hp⟩
          rcases List.mem_cons.1 he with rfl | he
          · exact had
          · exact Nat.lt_trans had (hp'.1 e he)
      · split
        · subst_vars
          split
          · exact hp'.2
          · exact List.pairwise_cons.2 hp'
        · rename_i h1 h2
          refine List.pairwise_cons.2 ⟨fun e he => ?_, ih ⟨hp'.2, fun e he => hc e (by simp [he])⟩⟩
          rcases Memory.mem_insert he with he | ⟨rfl, -⟩
          · exact hp'.1 e he
          · simp only; omega
  · rcases Memory.mem_insert hc with hc | ⟨rfl, hu⟩
    · exact hm.2 c hc
    · exact ⟨ha, hu⟩

/-- A write keeps the canonical form. -/
theorem Memory.wf_write {m : Memory} (a : Nat) (u : Byte) (hm : Memory.wf m) :
    Memory.wf (Memory.write m a u) := by
  unfold Memory.write
  split
  · exact Memory.wf_insert hm ‹_›
  · exact hm

/-- Writing consecutive bytes keeps the canonical form. -/
theorem Memory.wf_writeBytes {m : Memory} (a : Nat) (us : List Byte) (hm : Memory.wf m) :
    Memory.wf (Memory.writeBytes m a us) := by
  induction us generalizing m a with
  | nil => exact hm
  | cons u us ih => exact ih _ (Memory.wf_write a u hm)

/-- What memory reads after consecutive bytes are written inside the array. -/
theorem Memory.read_writeBytes {m : Memory} (a b : Nat) (us : List Byte) (hm : Memory.wf m)
    (ha : a + us.length ≤ memSize) :
    Memory.read (Memory.writeBytes m a us) b =
      if h : a ≤ b ∧ b - a < us.length then us[b - a]'h.2 else Memory.read m b := by
  induction us generalizing m a with
  | nil => simp [Memory.writeBytes]
  | cons u us ih =>
    simp only [List.length_cons] at ha
    rw [Memory.writeBytes, ih _ (Memory.wf_write a u hm) (by omega),
      Memory.read_write a b u hm (by omega)]
    rcases Nat.lt_trichotomy b a with h | h | h
    · rw [dif_neg (by omega), dif_neg (by omega), if_neg (by omega)]
    · subst h
      simp
    · obtain ⟨d, rfl⟩ : ∃ d, b = a + 1 + d := ⟨b - (a + 1), by omega⟩
      have e : a + 1 + d - a = d + 1 := by omega
      by_cases hd : d < us.length
      · rw [dif_pos (by simp; omega), dif_pos (by simp; omega)]
        simp [e]
      · rw [dif_neg (by simp; omega), dif_neg (by simp; omega), if_neg (by omega)]

@[simp] theorem Memory.length_readBytes (m : Memory) (a n : Nat) :
    (Memory.readBytes m a n).length = n := by simp [Memory.readBytes]

@[simp] theorem Memory.getElem_readBytes (m : Memory) (a n k : Nat)
    (h : k < (Memory.readBytes m a n).length) :
    (Memory.readBytes m a n)[k] = Memory.read m (a + k) := by simp [Memory.readBytes]

end Sys2Proof.Machine
end

