-- ==== Sys2Proof/Laws/PerInstr.lean ====
section
/-! SUPPORT. Per-instruction facts about instructions as syntax.
Family EncodeMatchesRow: an encoded instruction matches its own row of the opcode map (R80). -/

namespace Sys2Proof.Laws.EncodeMatchesRow

open Sys2Proof

/-- The place of an instruction's row in R80, counted from 0. -/
def rowIndex : Instr → Fin 31
  | .cls => 0
  | .ret => 1
  | .jp _ => 2
  | .call _ => 3
  | .seByte _ _ => 4
  | .sneByte _ _ => 5
  | .seReg _ _ => 6
  | .sneReg _ _ => 7
  | .ldByte _ _ => 8
  | .addByte _ _ => 9
  | .ldReg _ _ => 10
  | .orReg _ _ => 11
  | .andReg _ _ => 12
  | .xorReg _ _ => 13
  | .addReg _ _ => 14
  | .subReg _ _ => 15
  | .shrReg _ _ => 16
  | .subnReg _ _ => 17
  | .shlReg _ _ => 18
  | .ldI _ => 19
  | .jpV0 _ => 20
  | .rnd _ _ => 21
  | .drw _ _ _ => 22
  | .ldVxDt _ => 23
  | .ldDtVx _ => 24
  | .ldStVx _ => 25
  | .addI _ => 26
  | .ldF _ => 27
  | .ldB _ => 28
  | .ldMemVx _ => 29
  | .ldVxMem _ => 30

/-- The encoding of the instruction has the fixed bits of its row of R80. -/
def Statement (i : Instr) : Prop :=
  (opcodeMap[(rowIndex i).val]'(rowIndex i).isLt).accepts (encode i) = true

theorem accepts_KNNN (b : Word → Instr) (k : BitVec 4) (a : Word) :
    (OpcodeRow.mk 0xF000 (k ++ 0#12) b).accepts (wordKNNN k a) = true := by
  simp [OpcodeRow.accepts, and_F000, op_wordKNNN]

theorem accepts_KXNN (b : Word → Instr) (k : BitVec 4) (x : Reg) (u : Byte) :
    (OpcodeRow.mk 0xF000 (k ++ 0#12) b).accepts (wordKXNN k x u) = true := by
  simp [OpcodeRow.accepts, and_F000, op_wordKXNN]

theorem accepts_KXYN (b : Word → Instr) (k : BitVec 4) (x y : Reg) (n : BitVec 4) :
    (OpcodeRow.mk 0xF00F (k ++ 0#8 ++ n) b).accepts (wordKXYN k x y n) = true := by
  simp [OpcodeRow.accepts, and_F00F, op_wordKXYN, n_wordKXYN]

theorem accepts_KXY (b : Word → Instr) (k : BitVec 4) (x y : Reg) (n : BitVec 4) :
    (OpcodeRow.mk 0xF000 (k ++ 0#12) b).accepts (wordKXYN k x y n) = true := by
  simp [OpcodeRow.accepts, and_F000, op_wordKXYN]

theorem accepts_KX (b : Word → Instr) (k : BitVec 4) (x : Reg) (u : Byte) :
    (OpcodeRow.mk 0xF0FF (k ++ 0#4 ++ u) b).accepts (wordKXNN k x u) = true := by
  simp [OpcodeRow.accepts, and_F0FF, op_wordKXNN, nn_wordKXNN]

theorem cls : Statement .cls := rfl
theorem ret : Statement .ret := rfl
theorem jp (nnn : Word) : Statement (.jp nnn) := accepts_KNNN _ 0x1 nnn
theorem call (nnn : Word) : Statement (.call nnn) := accepts_KNNN _ 0x2 nnn
theorem seByte (x : Reg) (nn : Byte) : Statement (.seByte x nn) := accepts_KXNN _ 0x3 x nn
theorem sneByte (x : Reg) (nn : Byte) : Statement (.sneByte x nn) := accepts_KXNN _ 0x4 x nn
theorem seReg (x y : Reg) : Statement (.seReg x y) := accepts_KXYN _ 0x5 x y 0x0
theorem sneReg (x y : Reg) : Statement (.sneReg x y) := accepts_KXYN _ 0x9 x y 0x0
theorem ldByte (x : Reg) (nn : Byte) : Statement (.ldByte x nn) := accepts_KXNN _ 0x6 x nn
theorem addByte (x : Reg) (nn : Byte) : Statement (.addByte x nn) := accepts_KXNN _ 0x7 x nn
theorem ldReg (x y : Reg) : Statement (.ldReg x y) := accepts_KXYN _ 0x8 x y 0x0
theorem orReg (x y : Reg) : Statement (.orReg x y) := accepts_KXYN _ 0x8 x y 0x1
theorem andReg (x y : Reg) : Statement (.andReg x y) := accepts_KXYN _ 0x8 x y 0x2
theorem xorReg (x y : Reg) : Statement (.xorReg x y) := accepts_KXYN _ 0x8 x y 0x3
theorem addReg (x y : Reg) : Statement (.addReg x y) := accepts_KXYN _ 0x8 x y 0x4
theorem subReg (x y : Reg) : Statement (.subReg x y) := accepts_KXYN _ 0x8 x y 0x5
theorem shrReg (x y : Reg) : Statement (.shrReg x y) := accepts_KXYN _ 0x8 x y 0x6
theorem subnReg (x y : Reg) : Statement (.subnReg x y) := accepts_KXYN _ 0x8 x y 0x7
theorem shlReg (x y : Reg) : Statement (.shlReg x y) := accepts_KXYN _ 0x8 x y 0xE
theorem ldI (nnn : Word) : Statement (.ldI nnn) := accepts_KNNN _ 0xA nnn
theorem jpV0 (nnn : Word) : Statement (.jpV0 nnn) := accepts_KNNN _ 0xB nnn
theorem rnd (x : Reg) (nn : Byte) : Statement (.rnd x nn) := accepts_KXNN _ 0xC x nn
theorem drw (x y : Reg) (n : Nat) : Statement (.drw x y n) := accepts_KXY _ 0xD x y _
theorem ldVxDt (x : Reg) : Statement (.ldVxDt x) := accepts_KX _ 0xF x 0x07
theorem ldDtVx (x : Reg) : Statement (.ldDtVx x) := accepts_KX _ 0xF x 0x15
theorem ldStVx (x : Reg) : Statement (.ldStVx x) := accepts_KX _ 0xF x 0x18
theorem addI (x : Reg) : Statement (.addI x) := accepts_KX _ 0xF x 0x1E
theorem ldF (x : Reg) : Statement (.ldF x) := accepts_KX _ 0xF x 0x29
theorem ldB (x : Reg) : Statement (.ldB x) := accepts_KX _ 0xF x 0x33
theorem ldMemVx (x : Reg) : Statement (.ldMemVx x) := accepts_KX _ 0xF x 0x55
theorem ldVxMem (x : Reg) : Statement (.ldVxMem x) := accepts_KX _ 0xF x 0x65

end Sys2Proof.Laws.EncodeMatchesRow
end

