-- ==== Sys2Proof/Laws/Registers.lean ====
section
/-! SUPPORT. What reading a register gives after the operations that write registers. -/

namespace Sys2Proof.Machine

theorem readV_writeV (s : State) (x r : Reg) (u : Byte) :
    readV (writeV s x u) r = if r = x then u else readV s r := by
  simp only [readV, writeV, Vector.get_eq_getElem, Vector.getElem_set]
  by_cases h : r = x
  · simp [h]
  · have : ¬ x.val = r.val := fun e => h (Fin.ext e.symm)
    simp [h, this]

/-- A flagged write: the result in VX, the flag in VF unless VX is VF (R121). -/
theorem readV_writeFlagged (s : State) (x r : Reg) (f u : Byte) :
    readV (writeFlagged s x f u) r = if r = x then u else if r = VF then f else readV s r := by
  simp only [writeFlagged, readV_writeV]

@[simp] theorem readV_setPc (s : State) (a : Word) (r : Reg) : readV (setPc s a) r = readV s r := rfl
@[simp] theorem readV_setI (s : State) (a : Word) (r : Reg) : readV (setI s a) r = readV s r := rfl
@[simp] theorem readV_setDisp (s : State) (d : Display) (r : Reg) :
    readV (setDisp s d) r = readV s r := rfl
@[simp] theorem readV_setMem (s : State) (m : Memory) (r : Reg) :
    readV (setMem s m) r = readV s r := rfl
@[simp] theorem readV_advancePc (s : State) (r : Reg) : readV (advancePc s) r = readV s r := rfl
@[simp] theorem readV_countDraw (s : State) (r : Reg) : readV (countDraw s) r = readV s r := rfl
@[simp] theorem readV_bumpIndex (x : Reg) (s : State) (r : Reg) :
    readV (bumpIndex x s) r = readV s r := by simp [readV]
theorem readV_setV (s : State) (w : RegFile) (r : Reg) : readV (setV s w) r = w.get r := rfl

/-- `writeRegs` puts the k-th byte of its list into the register k places after the first. -/
theorem getElem_writeRegs (v : RegFile) (k : Nat) (us : List Byte) (j : Nat) (hj : j < 16) :
    (writeRegs v k us)[j] = if h : k ≤ j ∧ j - k < us.length then us[j - k]'h.2 else v[j] := by
  induction us generalizing v k with
  | nil => simp [writeRegs]
  | cons u us ih =>
    rw [writeRegs, ih]
    rcases Nat.lt_trichotomy j k with h | h | h
    · rw [dif_neg (by omega), dif_neg (by omega), Vector.getElem_setIfInBounds_ne (h := by omega)]
    · subst h
      simp
    · obtain ⟨d, rfl⟩ : ∃ d, j = k + 1 + d := ⟨j - (k + 1), by omega⟩
      have e : k + 1 + d - k = d + 1 := by omega
      by_cases hd : d < us.length
      · rw [dif_pos (by simp; omega), dif_pos (by simp; omega)]
        simp [e]
      · rw [dif_neg (by simp; omega), dif_neg (by simp; omega),
          Vector.getElem_setIfInBounds_ne (h := by omega)]

end Sys2Proof.Machine
end

