-- ==== Sys2Proof/Laws/Step.lean ====
section
/-! SUPPORT. What raising, settling, the bounds check, the call stack, a fetch and a step can do,
said once each. -/

namespace Sys2Proof.Machine

@[simp] theorem raise_eq (e : Error) (s : State) : raise e s = .next s := rfl

@[simp] theorem settle_ok (s t : State) : settle s (.ok t) = .next t := rfl

@[simp] theorem settle_error (s : State) (e : Error) : settle s (.error e) = .next s := rfl

/-- A settled result: the result itself, or the unchanged state after an error (R205). -/
theorem settle_cases {s t : State} {r : Except Error State} (h : settle s r = .next t) :
    r = .ok t ∨ ∃ e, r = .error e ∧ t = s := by
  cases r with
  | ok u => exact .inl (by simpa using h)
  | error e => exact .inr ⟨e, rfl, by simpa using h.symm⟩

/-- The bounds check passes exactly when every address is below 4096 (R56). -/
theorem ifInBounds_ok {base : Word} {n : Nat} (t : State) (h : n = 0 ∨ base.toNat + n ≤ memSize) :
    ifInBounds base n t = .ok t := if_pos h

/-- The bounds check fails with the lowest offending address (R56, R150). -/
theorem ifInBounds_error {base : Word} {n : Nat} (t : State) (hn : n ≠ 0)
    (h : memSize < base.toNat + n) :
    ifInBounds base n t = .error (.memoryOutOfBounds (lowestOffending base)) :=
  if_neg (by omega)

theorem ifInBounds_cases {base : Word} {n : Nat} {t u : State} (h : ifInBounds base n t = .ok u) :
    u = t ∧ (n = 0 ∨ base.toNat + n ≤ memSize) := by
  unfold ifInBounds at h
  split at h
  · exact ⟨by simpa using h.symm, ‹_›⟩
  · simp at h

theorem returnToCaller_nil {s : State} (h : s.stack = []) :
    returnToCaller s = .error (.stackUnderflow (pc0 s)) := by simp [returnToCaller, h]

theorem returnToCaller_append {s : State} {l : List Word} {a : Word} (h : s.stack = l ++ [a]) :
    returnToCaller s = .ok (setPc (setStack s l) a) := by simp [returnToCaller, h]

/-- A return that succeeds takes the last element off the stack and goes to it (R101). -/
theorem returnToCaller_cases {s t : State} (h : returnToCaller s = .ok t) :
    ∃ l a, s.stack = l ++ [a] ∧ t = setPc (setStack s l) a := by
  rcases List.eq_nil_or_concat s.stack with hs | ⟨l, a, hs⟩
  · rw [returnToCaller_nil hs] at h
    simp at h
  · rw [List.concat_eq_append] at hs
    rw [returnToCaller_append hs] at h
    exact ⟨l, a, hs, by simpa using h.symm⟩

/-- A call that succeeds pushes the address after it and goes to its target (R103). -/
theorem callTo_cases {s t : State} {a : Word} (h : callTo a s = .ok t) :
    s.stack.length ≠ s.cfg.stackDepth ∧ t = setPc (setStack s (s.stack ++ [s.pc])) a := by
  unfold callTo at h
  split at h
  · simp at h
  · exact ⟨‹_›, by simpa using h.symm⟩

/-! ### Fetch (R51, R57) -/

theorem fetch_error_of_le {s : State} (h : 4095 ≤ s.pc.toNat) :
    fetch s = .error (.programCounterOutOfBounds s.pc) := if_pos h

theorem fetch_of_lt {s : State} (h : s.pc.toNat < 4095) :
    fetch s = .ok (wordOfBytes (Memory.read s.mem s.pc.toNat) (Memory.read s.mem (s.pc.toNat + 1))) :=
  if_neg (by omega)

theorem fetch_ok_cases {s : State} {w : Word} (h : fetch s = .ok w) :
    s.pc.toNat < 4095 ∧
      w = wordOfBytes (Memory.read s.mem s.pc.toNat) (Memory.read s.mem (s.pc.toNat + 1)) := by
  unfold fetch at h
  split at h
  · simp at h
  · exact ⟨by omega, by simpa using h.symm⟩

theorem fetch_error_cases {s : State} {e : Error} (h : fetch s = .error e) :
    4095 ≤ s.pc.toNat ∧ e = .programCounterOutOfBounds s.pc := by
  unfold fetch at h
  split at h
  · exact ⟨‹_›, by simpa using h.symm⟩
  · simp at h

/-! ### Step (R75) -/

/-- Everything a step can do: a failed fetch leaves the state alone, an unknown word is stepped
over, and otherwise the decoded instruction runs with `pc = pc0 + 2`. -/
theorem step_cases {s t : State} (h : step s = .next t) :
    (4095 ≤ s.pc.toNat ∧ t = s) ∨
    (∃ w, fetch s = .ok w ∧ decode w = .error (.unknownInstruction w) ∧ t = advancePc s) ∨
    (∃ w i, fetch s = .ok w ∧ decode w = .ok i ∧ i.wellFormed = true ∧
      exec i (advancePc s) = .next t) := by
  unfold step at h
  split at h
  · rename_i e he
    exact .inl ⟨(fetch_error_cases he).1, by simpa using h.symm⟩
  · rename_i w hw
    split at h
    · rename_i e he
      have := (decode_error he).1
      subst this
      exact .inr (.inl ⟨w, hw, he, by simpa using h.symm⟩)
    · rename_i i hi
      exact .inr (.inr ⟨w, i, hw, hi, wellFormed_of_decode hi, h⟩)

theorem step_of_decode {s : State} {w : Word} {i : Instr} (hw : fetch s = .ok w)
    (hi : decode w = .ok i) : step s = exec i (advancePc s) := by
  unfold step
  rw [hw]
  simp only [hi]

/-- A transaction's answer carries its state. -/
theorem answer_next {t u : State} {r a : Response} (h : answer (.next t) r = .next (u, a)) :
    u = t ∧ a = r := by
  simp only [answer, Host.Outcome.next.injEq, Prod.mk.injEq] at h
  exact ⟨h.1.symm, h.2.symm⟩

end Sys2Proof.Machine
end

