-- ==== Sys2Proof/Tests/Slice0.lean ====
section
/-! SUPPORT. Tests: the well-formedness smoke tests, a word of every row of R80 written out from its
pattern, the vectors of spec/95_test_vectors.md one step at a time (cited by their row), and, for every
statement with hypotheses, states and operands that meet them (`witness_…`). -/

namespace Sys2Proof.Tests

open Sys2Proof Sys2Proof.Machine

/-! ### Helpers -/

/-- The reset state with the word `w` at 0x200, where the vectors start. -/
def start (w : Nat) : State := State.reset.withFetchWord 16 w

/-- Some registers given their values. -/
def regs (l : List (Reg × Byte)) (s : State) : State := l.foldl (fun s p => writeV s p.1 p.2) s

/-- What a function says of the next state of a step, when there is one. -/
def seen {α : Type} (f : State → α) (s : State) : Option α :=
  match step s with
  | .next t => some (f t)
  | .fault _ => none
  | .refused _ => none

/-- The next state of an outcome; `s` when there is none. -/
def nextOf (s : State) : Host.Outcome State Fault Refusal → State
  | .next t => t
  | .fault _ => s
  | .refused _ => s

/-- The state after a step. -/
def after (s : State) : State := nextOf s (step s)

/-- Display byte `k`. -/
def dispByte (s : State) (k : Nat) : Byte := s.disp[k]?.getD 0

/-- The core without the carry flag of 8XY4 (R33). -/
def noCarry (s : State) : State := { s with cfg := { s.cfg with addSetsCarry := false } }

/-- A call stack that holds 16 entries, STACK_DEPTH's default. -/
def fullStack : List Word := List.replicate 16 0x300

/-- What a function says of the state after a transaction, and the answer to it. -/
def answered {α : Type} (r : Request) (f : State → α) (s : State) : Option (α × Response) :=
  match transact r s with
  | .next (t, a) => some (f t, a)
  | .fault _ => none
  | .refused _ => none

/-- The same of an ADVANCE. -/
def advanced {α : Type} (f : State → α) (s : State) : Option (α × Response) := answered .advance f s

/-! ### Well-formedness refuses what no encoding holds (R72, R73) -/

theorem test_wellFormed_jp : (Instr.jp 0x1000).wellFormed = false := by decide
theorem test_wellFormed_call : (Instr.call 0x1000).wellFormed = false := by decide
theorem test_wellFormed_ldI : (Instr.ldI 0xFFFF).wellFormed = false := by decide
theorem test_wellFormed_jpV0 : (Instr.jpV0 0x1000).wellFormed = false := by decide
theorem test_wellFormed_drw : (Instr.drw 0 0 16).wellFormed = false := by decide
theorem test_wellFormed_limits :
    (Instr.jp 0xFFF).wellFormed = true ∧ (Instr.call 0xFFF).wellFormed = true ∧
    (Instr.ldI 0xFFF).wellFormed = true ∧ (Instr.jpV0 0xFFF).wellFormed = true ∧
    (Instr.drw 15 15 15).wellFormed = true := by decide

/-! ### Words written out bit by bit from the patterns of R80: op, x, y, n -/

theorem test_decode_cls : decode 0b0000_0000_1110_0000 = .ok .cls := by decide
theorem test_decode_ret : decode 0b0000_0000_1110_1110 = .ok .ret := by decide
theorem test_decode_jp : decode 0b0001_0010_0011_0100 = .ok (.jp 0x234) := by decide
theorem test_decode_call : decode 0b0010_1111_0000_0001 = .ok (.call 0xF01) := by decide
theorem test_decode_seByte : decode 0b0011_1010_0111_1111 = .ok (.seByte 10 0x7F) := by decide
theorem test_decode_sneByte : decode 0b0100_0001_1000_0000 = .ok (.sneByte 1 0x80) := by decide
theorem test_decode_seReg : decode 0b0101_0001_0010_0000 = .ok (.seReg 1 2) := by decide
theorem test_decode_sneReg : decode 0b1001_1110_0011_0000 = .ok (.sneReg 14 3) := by decide
theorem test_decode_ldByte : decode 0b0110_0000_0000_1010 = .ok (.ldByte 0 0x0A) := by decide
theorem test_decode_addByte : decode 0b0111_1111_0000_0001 = .ok (.addByte 15 0x01) := by decide
theorem test_decode_ldReg : decode 0b1000_0001_0010_0000 = .ok (.ldReg 1 2) := by decide
theorem test_decode_orReg : decode 0b1000_0011_0100_0001 = .ok (.orReg 3 4) := by decide
theorem test_decode_andReg : decode 0b1000_0101_0110_0010 = .ok (.andReg 5 6) := by decide
theorem test_decode_xorReg : decode 0b1000_0111_1000_0011 = .ok (.xorReg 7 8) := by decide
theorem test_decode_addReg : decode 0b1000_1001_1010_0100 = .ok (.addReg 9 10) := by decide
theorem test_decode_subReg : decode 0b1000_1011_1100_0101 = .ok (.subReg 11 12) := by decide
theorem test_decode_shrReg : decode 0b1000_0000_1111_0110 = .ok (.shrReg 0 15) := by decide
theorem test_decode_subnReg : decode 0b1000_1101_0000_0111 = .ok (.subnReg 13 0) := by decide
theorem test_decode_shlReg : decode 0b1000_0010_0001_1110 = .ok (.shlReg 2 1) := by decide
theorem test_decode_ldI : decode 0b1010_0001_0010_0011 = .ok (.ldI 0x123) := by decide
theorem test_decode_jpV0 : decode 0b1011_0011_0000_0000 = .ok (.jpV0 0x300) := by decide
theorem test_decode_rnd : decode 0b1100_0011_0000_1111 = .ok (.rnd 3 0x0F) := by decide
theorem test_decode_drw : decode 0b1101_1010_1011_0101 = .ok (.drw 10 11 5) := by decide
theorem test_decode_ldVxDt : decode 0b1111_0011_0000_0111 = .ok (.ldVxDt 3) := by decide
theorem test_decode_ldDtVx : decode 0b1111_0011_0001_0101 = .ok (.ldDtVx 3) := by decide
theorem test_decode_ldStVx : decode 0b1111_0100_0001_1000 = .ok (.ldStVx 4) := by decide
theorem test_decode_addI : decode 0b1111_0010_0001_1110 = .ok (.addI 2) := by decide
theorem test_decode_ldF : decode 0b1111_0000_0010_1001 = .ok (.ldF 0) := by decide
theorem test_decode_ldB : decode 0b1111_1010_0011_0011 = .ok (.ldB 10) := by decide
theorem test_decode_ldMemVx : decode 0b1111_1111_0101_0101 = .ok (.ldMemVx 15) := by decide
theorem test_decode_ldVxMem : decode 0b1111_1110_0110_0101 = .ok (.ldVxMem 14) := by decide

/-- Rows F14, F17, A32, E4 and E5, and the neighbours of 00E0 and 00EE (R86). -/
def undescribed : List Word :=
  [0x5121, 0x912F, 0x8018, 0x801F, 0x0123, 0x0000, 0xE09E, 0xE0A1, 0xF00A, 0xF0FF, 0x00E1, 0x00EF]

theorem test_decode_unknown :
    undescribed.map decode = undescribed.map (fun w => .error (.unknownInstruction w)) := by
  decide +kernel

/-- The high byte is the byte at the lower address (R51), and an instruction takes two bytes (R70). -/
theorem test_decodeBytes :
    decodeBytes [0x12, 0x34, 0xFF] = .ok (.jp 0x234, [0xFF]) ∧
    decodeBytes [0x12] = .error .truncated ∧ decodeBytes [] = .error .truncated := by decide

theorem test_decodeTableWord : decodeTableWord 16 0xD125 = some (.drw 1 2 5) := by decide

theorem test_encode : encode (.drw 10 11 5) = 0xDAB5 ∧ encode (.call 0xF01) = 0x2F01 ∧
    encode (.shlReg 2 1) = 0x821E ∧ encodeBytes (.ldVxMem 14) = [0xFE, 0x65] := by decide

/-! ### Control transfer and skips (95_test_vectors.md 2.1) -/

/-- F1. -/
theorem test_ret_pops :
    seen (fun t => (t.pc, t.stack)) { start 0x00EE with stack := [0x300] } = some (0x300, []) := by decide

/-- F2. -/
theorem test_ret_underflow :
    advanced (fun t => (t.pc, t.stack)) (start 0x00EE) = some ((0x202, []), .status 2 0x200) := by decide

/-- F4 and F5. -/
theorem test_jp : seen State.pc (start 0x1234) = some 0x234 ∧ seen State.pc (start 0x1200) = some 0x200 := by
  decide

/-- F7. -/
theorem test_call_pushes :
    seen (fun t => (t.pc, t.stack)) (start 0x2400) = some (0x400, [0x202]) := by decide

/-- F8. -/
theorem test_call_overflow :
    advanced (fun t => (t.pc, t.stack)) { start 0x2400 with stack := fullStack } =
      some ((0x202, fullStack), .status 4 0x200) := by decide

/-- F10. -/
theorem test_seByte :
    seen State.pc (regs [(0, 0x12)] (start 0x3012)) = some 0x204 ∧
    seen State.pc (regs [(0, 0x13)] (start 0x3012)) = some 0x202 := by decide

/-- F11. -/
theorem test_sneByte :
    seen State.pc (regs [(0, 0x13)] (start 0x4012)) = some 0x204 ∧
    seen State.pc (regs [(0, 0x12)] (start 0x4012)) = some 0x202 := by decide

/-- F12. -/
theorem test_seReg :
    seen State.pc (regs [(1, 7), (2, 7)] (start 0x5120)) = some 0x204 ∧
    seen State.pc (regs [(1, 7), (2, 8)] (start 0x5120)) = some 0x202 := by decide

/-- F15. -/
theorem test_sneReg :
    seen State.pc (regs [(1, 7), (2, 8)] (start 0x9120)) = some 0x204 ∧
    seen State.pc (regs [(1, 7), (2, 7)] (start 0x9120)) = some 0x202 := by decide

/-- F18 and F20. -/
theorem test_jpV0 :
    seen State.pc (regs [(0, 0x10)] (start 0xB300)) = some 0x310 ∧
    seen State.pc (regs [(0, 0xFF)] (start 0xBFFF)) = some 0x10FE := by decide

/-- F19 and F21. -/
theorem test_jpV0_quirk :
    seen State.pc (regs [(3, 0x20), (0, 0x10)] { start 0xB300 with q := 0b100 }) = some 0x320 ∧
    seen State.pc (regs [(15, 0x01)] { start 0xBFFF with q := 0b100 }) = some 0x1000 := by decide

/-! ### Register loads and the ALU (95_test_vectors.md 2.2): VX or V0, and VF -/

/-- A2. -/
theorem test_ldByte : seen (readV · VF) (start 0x6FFF) = some 0xFF := by decide

/-- A3. -/
theorem test_addByte : seen (fun t => (readV t 1, readV t VF))
    (regs [(1, 0xFF), (15, 0x55)] (start 0x7102)) = some (0x01, 0x55) := by decide

/-- A5. -/
theorem test_ldReg : seen (readV · 1) (regs [(2, 0x5A)] (start 0x8120)) = some 0x5A := by decide

/-- A6. -/
theorem test_orReg : seen (fun t => (readV t 0, readV t VF))
    (regs [(0, 0xF0), (1, 0x0F), (15, 0x55)] (start 0x8011)) = some (0xFF, 0x55) := by decide

/-- A7. -/
theorem test_andReg : seen (readV · 0) (regs [(0, 0xF0), (1, 0x3C)] (start 0x8012)) = some 0x30 := by
  decide

/-- A8. -/
theorem test_xorReg : seen (readV · 0) (regs [(0, 0xFF), (1, 0x0F)] (start 0x8013)) = some 0xF0 := by
  decide

/-- A11, with the carry flag and without. -/
theorem test_addReg :
    seen (fun t => (readV t 0, readV t VF))
      (regs [(0, 0xFF), (1, 0x01), (15, 0x55)] (start 0x8014)) = some (0x00, 0x01) ∧
    seen (fun t => (readV t 0, readV t VF))
      (noCarry (regs [(0, 0xFF), (1, 0x01), (15, 0x55)] (start 0x8014))) = some (0x00, 0x55) := by decide

/-- A14: the result overwrites the carry. -/
theorem test_addReg_into_VF :
    seen (readV · VF) (regs [(15, 0xFF), (0, 0x01)] (start 0x8F04)) = some 0x00 := by decide

/-- A16 and A17. -/
theorem test_subReg :
    seen (fun t => (readV t 0, readV t VF)) (regs [(0, 3), (1, 5)] (start 0x8015)) = some (0xFE, 0) ∧
    seen (fun t => (readV t 0, readV t VF)) (regs [(0, 7), (1, 7)] (start 0x8015)) = some (0, 0) := by
  decide

/-- A18 and A19: VF as the destination, and as the subtrahend. -/
theorem test_subReg_VF :
    seen (readV · VF) (regs [(15, 5), (1, 3)] (start 0x8F15)) = some 0x02 ∧
    seen (fun t => (readV t 0, readV t VF)) (regs [(0, 5), (15, 3)] (start 0x80F5)) = some (2, 1) := by
  decide

/-- S2 and A22. -/
theorem test_shrReg :
    seen (fun t => (readV t 0, readV t VF)) (regs [(1, 3)] (start 0x8016)) = some (1, 1) ∧
    seen (readV · VF) (regs [(1, 0x05)] (start 0x8F16)) = some 0x02 := by decide

/-- A20. -/
theorem test_shrReg_quirk :
    seen (fun t => (readV t 0, readV t VF))
      (regs [(0, 0x05), (1, 0x03)] { start 0x8016 with q := 0b001 }) = some (0x02, 0x01) := by decide

/-- A23 and A24. -/
theorem test_subnReg :
    seen (fun t => (readV t 0, readV t VF)) (regs [(0, 3), (1, 5)] (start 0x8017)) = some (2, 1) ∧
    seen (fun t => (readV t 0, readV t VF)) (regs [(0, 5), (1, 3)] (start 0x8017)) = some (0xFE, 0) := by
  decide

/-- A26. -/
theorem test_shlReg :
    seen (fun t => (readV t 0, readV t VF)) (regs [(1, 0x81)] (start 0x801E)) = some (2, 1) := by decide

/-- A27. -/
theorem test_shlReg_quirk :
    seen (fun t => (readV t 0, readV t VF))
      (regs [(0, 0x40)] { start 0x801E with q := 0b001 }) = some (0x80, 0) := by decide

/-- A29 and A31, for a port that presents the byte. -/
theorem test_rnd (h : Config.randomByte 0 = 0xA5) :
    seen (readV · 0) (start 0xC00F) = some 0x05 ∧ seen (readV · 3) (start 0xC3FF) = some 0xA5 := by
  constructor
  · show some ((Config.randomByte 0 &&& 0x0F) : Byte) = some 0x05
    rw [h]; rfl
  · show some ((Config.randomByte 0 &&& 0xFF) : Byte) = some 0xA5
    rw [h]; rfl

/-- A30: the port is sampled though `nn` is 0. -/
theorem test_rnd_samples : seen State.draws (start 0xC000) = some 1 := by decide

/-! ### Index register and memory (95_test_vectors.md 2.3) -/

/-- M1. -/
theorem test_ldI : seen State.i (start 0xA123) = some 0x0123 := by decide

/-- M3 and M4. -/
theorem test_addI :
    seen (fun t => (t.i, readV t VF)) (regs [(2, 0x02), (15, 0x55)] { start 0xF21E with i := 0xFFFF }) =
      some (0x0001, 0x55) ∧
    seen State.i (regs [(2, 0x01)] { start 0xF21E with i := 0x0FFF }) = some 0x1000 := by decide

/-- M5. -/
theorem test_ldF :
    seen State.i (regs [(0, 0x0F)] (start 0xF029)) = some 0x05B ∧
    seen State.i (regs [(0, 0xFF)] (start 0xF029)) = some 0x50B := by decide

/-- M6 and M8. -/
theorem test_ldB :
    seen (fun t => (Memory.readBytes t.mem 0x300 3, t.i))
      (regs [(10, 0x7B)] { start 0xFA33 with i := 0x300 }) = some ([1, 2, 3], 0x300) ∧
    seen (fun t => Memory.readBytes t.mem 0xFFD 3)
      (regs [(0, 0x7B)] { start 0xF033 with i := 0xFFD }) = some [1, 2, 3] := by decide

/-- M9. -/
theorem test_ldB_out_of_bounds :
    advanced (fun t => (Memory.readBytes t.mem 0xFFE 2, t.pc))
      (regs [(0, 0x7B)] { start 0xF033 with i := 0xFFE }) =
      some (([0, 0], 0x202), .status 5 0x1000) := by decide

/-- M10 and M11. -/
theorem test_ldMemVx :
    seen (fun t => (Memory.readBytes t.mem 0x300 3, t.i))
      (regs [(0, 1), (1, 2), (2, 9)] { start 0xF155 with i := 0x300 }) = some ([1, 2, 0], 0x302) ∧
    seen (fun t => (Memory.readBytes t.mem 0x300 3, t.i))
      (regs [(0, 1), (1, 2), (2, 9)] { start 0xF155 with i := 0x300, q := 0b010 }) =
      some ([1, 2, 0], 0x300) := by decide

/-- M12 and M13. -/
theorem test_ldMemVx_bounds :
    seen (fun t => (Memory.read t.mem 0xFFF, t.i)) (regs [(15, 9)] { start 0xFF55 with i := 0xFF0 }) =
      some (9, 0x1000) ∧
    advanced (fun t => (Memory.read t.mem 0xFFF, t.i, t.pc))
      (regs [(14, 9)] { start 0xFF55 with i := 0xFF1 }) =
      some ((0, 0xFF1, 0x202), .status 5 0x1000) := by decide

/-- Memory with 01 02 03 at 0x300, the setup of M14 and M15. -/
def threeBytes (w : Nat) : State :=
  { start w with mem := Memory.writeBytes (start w).mem 0x300 [1, 2, 3], i := 0x300 }

/-- M14 and M15. -/
theorem test_ldVxMem :
    seen (fun t => (readV t 0, readV t 1, readV t 2, t.i)) (threeBytes 0xF265) = some (1, 2, 3, 0x303) ∧
    seen (fun t => (readV t 0, readV t 1, readV t 2, t.i)) { threeBytes 0xF265 with q := 0b010 } =
      some (1, 2, 3, 0x300) := by decide

/-- M16 and M17. -/
theorem test_ldVxMem_out_of_bounds :
    advanced (readV · 0) (regs [(0, 5)] { start 0xF065 with i := 0x1000 }) =
      some (5, .status 5 0x1000) ∧
    advanced (readV · 0) (regs [(0, 5)] { start 0xF065 with i := 0xFFFF }) =
      some (5, .status 5 0xFFFF) := by decide

/-! ### Display (95_test_vectors.md 2.4) -/

/-- A display whose first byte is `u` and whose last is 0xFF. -/
def marked (u : Byte) : Display := (clearedDisplay.set 0 u).set 255 0xFF

/-- D1. -/
theorem test_cls :
    seen (fun t => (dispByte t 0, dispByte t 255, readV t VF))
      (regs [(15, 0x55)] { start 0x00E0 with disp := marked 0xFF }) = some (0, 0, 0x55) := by decide +kernel

/-- A sprite of some bytes at I = 0x300. -/
def sprite (w : Nat) (bytes : List Byte) : State :=
  { start w with mem := Memory.writeBytes (start w).mem 0x300 bytes, i := 0x300 }

/-- D4 (the anchor wraps), D5 (clipping) and D6 (a collision). -/
theorem test_drw :
    seen (fun t => (dispByte t 64, dispByte t 65, readV t VF))
      (regs [(0, 69), (1, 40)] (sprite 0xD011 [0xFF])) = some (0x07, 0xF8, 0) ∧
    seen (fun t => (dispByte t 247, dispByte t 255, dispByte t 240, dispByte t 248, dispByte t 7))
      (regs [(0, 60), (1, 30)] (sprite 0xD013 [0xFF, 0xFF, 0xFF])) = some (0x0F, 0x0F, 0, 0, 0) ∧
    seen (fun t => (dispByte t 0, readV t VF))
      { sprite 0xD011 [0xC0] with disp := marked 0x80 } = some (0x40, 1) := by decide +kernel

/-- D9 (VF is a coordinate), D10 (out of bounds) and D11 (rows not drawn are not checked). -/
theorem test_drw_corners :
    seen (fun t => (dispByte t 1, readV t VF)) (regs [(15, 10)] (sprite 0xDF01 [0x80])) =
      some (0x20, 0) ∧
    advanced (fun t => (dispByte t 0, readV t VF, t.pc))
      (regs [(15, 0x55)] { start 0xD012 with i := 0xFFF }) =
      some ((0, 0x55, 0x202), .status 5 0x1000) ∧
    seen (fun t => (dispByte t 248, readV t VF))
      (regs [(1, 31)] { start 0xD012 with
        i := 0xFFF, mem := Memory.write (start 0xD012).mem 0xFFF 0x80 }) = some (0x80, 0) := by
  decide +kernel

/-! ### Timers (95_test_vectors.md 2.5) -/

/-- T1. -/
theorem test_ldDtVx : seen State.dt (regs [(3, 0x3C)] (start 0xF315)) = some 0x3C := by decide

/-- T2 and T4. -/
theorem test_ldVxDt :
    seen (readV · 3) { start 0xF307 with dt := 0x3C } = some 0x3C ∧
    seen (readV · VF) { start 0xFF07 with dt := 0x07 } = some 0x07 := by decide

/-- T3. -/
theorem test_ldStVx :
    seen (fun t => (t.st, t.dt)) (regs [(4, 0x02)] { start 0xF418 with dt := 9 }) = some (2, 9) := by
  decide

/-! ### The cycle and the host (95_test_vectors.md 2.6) -/

/-- E1 and E4. -/
theorem test_advance_errors :
    advanced State.pc { start 0x00E0 with pc := 0xFFF } = some (0xFFF, .status 1 0xFFF) ∧
    advanced State.pc (start 0x0123) = some (0x202, .status 3 0x0123) := by decide

/-- S1's image lands at 0x200. -/
theorem test_loadProgram :
    answered (.loadProgram [0x60, 0x0A, 0x61, 0x05, 0x80, 0x14])
      (fun t => Memory.readBytes t.mem 0x1FF 8) State.reset =
      some ([0, 0x60, 0x0A, 0x61, 0x05, 0x80, 0x14, 0], .status 0 0) := by decide

/-- E7: 3584 bytes are accepted, 3585 are not. -/
theorem test_loadProgram_size :
    errorOf (loadProgram (List.replicate 3584 1) State.reset) = none ∧
    answered (.loadProgram (List.replicate 3585 1)) State.mem State.reset = some ([], .status 6 0) := by
  decide +kernel

/-- A read answers OK with its data (R208, R220). -/
theorem test_read_responses :
    answered (.timerRead .dt) State.dt { State.reset with dt := 7 } = some (7, ⟨0, 0, .timer 7⟩) ∧
    answered (.inspect .pc) State.pc State.reset = some (0x200, ⟨0, 0, .inspected (.word 0x200)⟩) := by
  decide

/-- E8: the ends of the first glyph and of the last, and the byte after them. -/
theorem test_loadFont :
    answered .loadFont (fun t => (Memory.read t.mem 0x10, Memory.read t.mem 0x13, Memory.read t.mem 0x5C,
      Memory.read t.mem 0x5F, Memory.read t.mem 0x60)) State.reset =
      some ((0xF0, 0x90, 0x80, 0x80, 0), .status 0 0) := by decide +kernel

/-! ### Witnesses: states and operands that meet the hypotheses of the statements -/

/-- A word of every row of R80 with that row's mask and pattern, at the ends of the operand ranges. -/
def rowWords : List (Word × Word × Word) :=
  [(0x00E0, 0xFFFF, 0x00E0), (0x00EE, 0xFFFF, 0x00EE), (0x1FFF, 0xF000, 0x1000),
   (0x2FFF, 0xF000, 0x2000), (0x3FFF, 0xF000, 0x3000), (0x4000, 0xF000, 0x4000),
   (0x5FF0, 0xF00F, 0x5000), (0x9000, 0xF00F, 0x9000), (0x6FFF, 0xF000, 0x6000),
   (0x7FFF, 0xF000, 0x7000)] ++
  [(0x8FF0, 0xF00F, 0x8000), (0x8FF1, 0xF00F, 0x8001), (0x8FF2, 0xF00F, 0x8002),
   (0x8FF3, 0xF00F, 0x8003), (0x8FF4, 0xF00F, 0x8004), (0x8FF5, 0xF00F, 0x8005),
   (0x8FF6, 0xF00F, 0x8006), (0x8FF7, 0xF00F, 0x8007), (0x8FFE, 0xF00F, 0x800E)] ++
  [(0xAFFF, 0xF000, 0xA000), (0xB000, 0xF000, 0xB000), (0xCFFF, 0xF000, 0xC000),
   (0xDFFF, 0xF000, 0xD000), (0xFF07, 0xF0FF, 0xF007), (0xFF15, 0xF0FF, 0xF015),
   (0xF018, 0xF0FF, 0xF018), (0xFF1E, 0xF0FF, 0xF01E), (0xFF29, 0xF0FF, 0xF029),
   (0xFF33, 0xF0FF, 0xF033), (0xFF55, 0xF0FF, 0xF055), (0xF065, 0xF0FF, 0xF065)]

/-- OpcodeMapDecodes: every row is matched by some word, with its fields. -/
theorem witness_OpcodeMapDecodes :
    rowWords.length = 31 ∧
    rowWords.all (fun p => p.1 &&& p.2.1 == p.2.2 &&
      (fieldX p.1).val == p.1.toNat / 256 % 16 && (fieldY p.1).val == p.1.toNat / 16 % 16 &&
      fieldN p.1 == p.1.toNat % 16 && (fieldNN p.1).toNat == p.1.toNat % 256 &&
      (fieldNNN p.1).toNat == p.1.toNat % 4096) = true := by decide +kernel

/-- UndescribedWordsAreUnknown: a word of each of its five groups, at the ends of the groups. -/
theorem witness_UndescribedWordsAreUnknown :
    ((0x0FFF#16).toNat / 4096 = 0 ∧ (0x0FFF#16).toNat ≠ 0x0E0 ∧ (0x0FFF#16).toNat ≠ 0x0EE) ∧
    (((0x5001#16).toNat / 4096 = 5 ∨ (0x5001#16).toNat / 4096 = 9) ∧ (0x5001#16).toNat % 16 ≠ 0) ∧
    (((0x9FFF#16).toNat / 4096 = 5 ∨ (0x9FFF#16).toNat / 4096 = 9) ∧ (0x9FFF#16).toNat % 16 ≠ 0) ∧
    ((0x8FFF#16).toNat / 4096 = 8 ∧ (0x8FFF#16).toNat % 16 ∈ [0x8, 0x9, 0xA, 0xB, 0xC, 0xD, 0xF]) ∧
    (0xE000#16).toNat / 4096 = 0xE ∧
    ((0xFFFF#16).toNat / 4096 = 0xF ∧
      (0xFFFF#16).toNat % 256 ∉ [0x07, 0x15, 0x18, 0x1E, 0x29, 0x33, 0x55, 0x65]) := by decide

/-- EncodeOfDecode: a word that decodes, with every operand bit set. -/
theorem witness_EncodeOfDecode : decode 0xDFFF = .ok (.drw 15 15 15) := by decide

/-- DecodeOfEncode: the largest operands of a sprite and of an address (see also
`test_wellFormed_limits`). -/
theorem witness_DecodeOfEncode :
    (Instr.drw 15 15 15).wellFormed = true ∧ (Instr.jpV0 0xFFF).wellFormed = true := by decide

/-- The word `w` at the last address where a fetch succeeds. -/
def atTop (w : Nat) : State := State.withFetchWord { State.reset with pc := 4094 } 16 w

/-- StepRunsDecodedInstruction, at pc = 4094. -/
theorem witness_StepRunsDecodedInstruction :
    (atTop 0x3000).pc.toNat < 4095 ∧
    (0x3000#16).toNat = (Memory.read (atTop 0x3000).mem (atTop 0x3000).pc.toNat).toNat * 256 +
      (Memory.read (atTop 0x3000).mem ((atTop 0x3000).pc.toNat + 1)).toNat ∧
    decode 0x3000 = .ok (.seByte 0 0) := by decide

/-- UnknownWordIsSteppedOver, at pc = 4094. -/
theorem witness_UnknownWordIsSteppedOver :
    (atTop 0xE09E).pc.toNat < 4095 ∧
    (0xE09E#16).toNat = (Memory.read (atTop 0xE09E).mem (atTop 0xE09E).pc.toNat).toNat * 256 +
      (Memory.read (atTop 0xE09E).mem ((atTop 0xE09E).pc.toNat + 1)).toNat ∧
    decode 0xE09E = .error (.unknownInstruction 0xE09E) := by decide

/-- The reset state at a given pc. -/
def atPc (a : Word) : State := { State.reset with pc := a }

/-- FetchOutOfBoundsChangesNothing and FailingPcRepeats: the lowest pc that fails and the highest. -/
theorem witness_FetchOutOfBoundsChangesNothing :
    4095 ≤ (atPc 4095).pc.toNat ∧ 4095 ≤ (atPc 0xFFFF).pc.toNat := by decide

theorem witness_FailingPcRepeats : 4095 ≤ (atPc 4095).pc.toNat := by decide

/-- PcAfterAdvance: a failed fetch, an unknown word, an instruction without an error and one with. -/
theorem witness_PcAfterAdvance :
    (step (atPc 4095) = .next (after (atPc 4095)) ∧ 4095 ≤ (atPc 4095).pc.toNat) ∧
    (step (atTop 0) = .next (after (atTop 0)) ∧ fetch (atTop 0) = .ok 0 ∧
      decode 0 = .error (.unknownInstruction 0)) ∧
    (step (start 0x2400) = .next (after (start 0x2400)) ∧ fetch (start 0x2400) = .ok 0x2400 ∧
      decode 0x2400 = .ok (.call 0x400) ∧ advanceError (start 0x2400) = none) ∧
    (step (start 0x00EE) = .next (after (start 0x00EE)) ∧ fetch (start 0x00EE) = .ok 0x00EE ∧
      decode 0x00EE = .ok .ret ∧ advanceError (start 0x00EE) ≠ none) :=
  ⟨⟨rfl, by decide⟩, ⟨rfl, by decide, by decide⟩, ⟨rfl, by decide, by decide, by decide⟩,
    ⟨rfl, by decide, by decide, by decide⟩⟩

/-- StateAfterEachError: a state for each error of an ADVANCE, and an image one byte too long. -/
theorem witness_StateAfterEachError :
    advanceError (atPc 4095) = some (.programCounterOutOfBounds 4095) ∧
    advanceError (start 0x0123) = some (.unknownInstruction 0x0123) ∧
    advanceError (start 0x00EE) = some (.stackUnderflow 0x200) ∧
    advanceError { start 0x2400 with stack := fullStack } = some (.stackOverflow 0x200) ∧
    advanceError { start 0xF033 with i := 0xFFE } = some (.memoryOutOfBounds 0x1000) ∧
    4096 < 0x200 + (List.replicate 3585 (0 : Byte)).length := by
  rw [List.length_replicate]
  decide

/-- JumpToItselfHalts, at 0x200 and at an odd pc. -/
theorem witness_JumpToItselfHalts :
    (fetch (start 0x1200) = .ok 0x1200 ∧ (0x1200#16).toNat = 0x1000 + (start 0x1200).pc.toNat) ∧
    fetch (State.withFetchWord (atPc 0xFFD) 16 0x1FFD) = .ok 0x1FFD ∧
    (0x1FFD#16).toNat = 0x1000 + (State.withFetchWord (atPc 0xFFD) 16 0x1FFD).pc.toNat := by decide

/-- The reset state with a given call stack. -/
def withStack (l : List Word) : State := { State.reset with stack := l }

/-- ReturnPopsIntoPc: one entry, two entries, none. -/
theorem witness_ReturnPopsIntoPc :
    (withStack [0x300]).stack = [] ++ [0x300] ∧
    (withStack [0x202, 0x1000]).stack = [0x202] ++ [0x1000] ∧ (withStack []).stack = [] := by decide

/-- CallPushesAndJumps: an empty stack, one entry short of full, and full. -/
theorem witness_CallPushesAndJumps :
    (withStack []).stack.length ≠ (withStack []).cfg.stackDepth ∧
    (withStack (List.replicate 15 0x300)).stack.length ≠
      (withStack (List.replicate 15 0x300)).cfg.stackDepth ∧
    (withStack fullStack).stack.length = (withStack fullStack).cfg.stackDepth := by decide

/-- The reset state with a given quirk register. -/
def withQ (q : BitVec 3) : State := { State.reset with q := q }

/-- JumpWithOffset: the largest `nnn`, with the quirk off, and with it on and VX = VF. -/
theorem witness_JumpWithOffset :
    (0xFFF#16).toNat < 4096 ∧ (withQ 0b011).q.getLsbD 2 = false ∧
    (withQ 0b100).q.getLsbD 2 = true ∧ (15 : Reg).val = (0xFFF#16).toNat / 256 := by decide

/-- ShiftByOne: a source for the quirk off and one for it on. -/
theorem witness_ShiftByOne :
    (readV (withQ 0b110) 1 = if (withQ 0b110).q.getLsbD 0 = true then readV (withQ 0b110) 0
      else readV (withQ 0b110) 1) ∧
    (readV (withQ 0b001) 0 = if (withQ 0b001).q.getLsbD 0 = true then readV (withQ 0b001) 0
      else readV (withQ 0b001) 1) ∧ (withQ 0b001).q.getLsbD 0 = true := by decide

/-- The reset state with a given index register and quirk register. -/
def withI (i : Word) (q : BitVec 3) : State := { State.reset with i := i, q := q }

/-- BcdStore: the highest I that fits, the lowest that does not, and I beyond the array. -/
theorem witness_BcdStore :
    (Memory.wf (withI 0xFFD 0).mem ∧ (withI 0xFFD 0).i.toNat + 2 < 4096) ∧
    (Memory.wf (withI 0xFFE 0).mem ∧ 4096 ≤ (withI 0xFFE 0).i.toNat + 2) ∧
    4096 ≤ (withI 0xFFFF 0).i.toNat + 2 := by decide

/-- RegisterStore and RegisterLoad: all sixteen registers, just inside and just outside, with the quirk
off and on. -/
theorem witness_RegisterStore :
    (Memory.wf (withI 0xFF0 0).mem ∧ (withI 0xFF0 0).i.toNat + (15 : Reg).val < 4096) ∧
    ((withI 0xFF0 0b010).i.toNat + (15 : Reg).val < 4096 ∧
      (withI 0xFF0 0b010).q.getLsbD 1 = true) ∧
    (Memory.wf (withI 0xFF1 0).mem ∧ 4096 ≤ (withI 0xFF1 0).i.toNat + (15 : Reg).val) ∧
    4096 ≤ (withI 0x1000 0).i.toNat + (0 : Reg).val := by decide

theorem witness_RegisterLoad :
    (withI 0xFFF 0).i.toNat + (0 : Reg).val < 4096 ∧
    4096 ≤ (withI 0xFF1 0b010).i.toNat + (15 : Reg).val ∧
    4096 ≤ (withI 0xFFFF 0).i.toNat + (0 : Reg).val := by decide

/-- A state in which FX55 fills the top of memory. -/
def storing : State := regs [(0, 1), (14, 0x62), (15, 0x99)] (withI 0xFF0 0)

/-- The state after FX55 with X = 15. -/
def stored : State := nextOf storing (exec (.ldMemVx 15) storing)

/-- The state that FX65 is then run from, with the registers zeroed and I as before. -/
def reloading : State := { stored with v := Vector.replicate 16 0, i := storing.i }

/-- StoreThenLoadRestores, for X = 15 at the top of memory. -/
theorem witness_StoreThenLoadRestores :
    Memory.wf storing.mem ∧ storing.i.toNat + (15 : Reg).val < 4096 ∧
    exec (.ldMemVx 15) storing = .next stored ∧
    exec (.ldVxMem 15) reloading = .next (nextOf reloading (exec (.ldVxMem 15) reloading)) :=
  ⟨by decide, by decide, rfl, rfl⟩

/-- FetchSeesStoredBytes, for the last two stored registers. -/
theorem witness_FetchSeesStoredBytes :
    Memory.wf storing.mem ∧ storing.i.toNat + (15 : Reg).val < 4096 ∧
    exec (.ldMemVx 15) storing = .next stored ∧ (15 : Reg).val = (14 : Reg).val + 1 ∧
    (15 : Reg).val ≤ (15 : Reg).val :=
  ⟨by decide, by decide, rfl, by decide, by decide⟩

/-- The reset state with I at the last address and V1 = `row`. -/
def lastByte (row : Byte) : State := regs [(1, row)] (withI 0xFFF 0)

/-- SpriteInvertsCoveredPixels: one row at the last address; two rows there of which the display takes
one; no rows beyond the array. -/
theorem witness_SpriteInvertsCoveredPixels :
    SpriteInMemory (lastByte 0) 1 1 ∧ SpriteInMemory (lastByte 31) 1 2 ∧
    SpriteInMemory (withI 0xFFFF 0) 1 0 := by decide

/-- A sprite byte 0x80 at 0x300, drawn at (0, 0) over a display whose first byte is `u`. -/
def drawing (u : Byte) : State :=
  { withI 0x300 0 with mem := [(0x300, 0x80)], disp := clearedDisplay.set 0 u }

/-- SpriteCollisionFlag: a draw that meets a pixel that is on, and one that meets none. -/
theorem witness_SpriteCollisionFlag :
    (SpriteInMemory (drawing 0x80) 1 1 ∧ ∃ (k : Fin 256) (c : Fin 8),
      drawsPixel (drawing 0x80) 0 1 1 (k.val / 8) (k.val % 8 * 8 + c.val) = true ∧
      ((drawing 0x80).disp.get k).getLsbD (7 - c.val) = true) ∧
    (SpriteInMemory (withI 0x300 0) 1 1 ∧ ¬ ∃ (k : Fin 256) (c : Fin 8),
      drawsPixel (withI 0x300 0) 0 1 1 (k.val / 8) (k.val % 8 * 8 + c.val) = true ∧
      ((withI 0x300 0).disp.get k).getLsbD (7 - c.val) = true) := by
  refine ⟨⟨by decide, 0, 0, by decide +kernel, by decide +kernel⟩, by decide, ?_⟩
  rintro ⟨k, c, -, h⟩
  have e : (withI 0x300 0).disp.get k = 0 := Vector.getElem_replicate k.isLt
  rw [e] at h
  exact absurd h (by simp)

/-- The state after drawing once, and twice. -/
def drawnOnce (u : Byte) : State := nextOf (drawing u) (exec (.drw 0 1 1) (drawing u))
def drawnTwice (u : Byte) : State := nextOf (drawnOnce u) (exec (.drw 0 1 1) (drawnOnce u))

/-- SpriteFrame. -/
theorem witness_SpriteFrame : exec (.drw 0 1 1) (drawing 0x80) = .next (drawnOnce 0x80) := rfl

/-- SpriteOutOfBounds: a second row that would be read at 0x1000, and a sprite that fits. -/
theorem witness_SpriteOutOfBounds :
    ¬ SpriteInMemory (lastByte 0) 1 2 ∧ ¬ SpriteInMemory (withI 0xFFFF 0) 1 1 ∧
    SpriteInMemory (lastByte 0) 1 1 := by decide

/-- SpriteDrawnTwiceRestores and SecondDrawAlwaysCollides: over a pixel that was off, with the set bit
that collides. -/
theorem witness_SpriteDrawnTwiceRestores :
    SpriteInMemory (drawing 0) 1 1 ∧ (0 : Reg) ≠ VF ∧ (1 : Reg) ≠ VF ∧
    exec (.drw 0 1 1) (drawing 0) = .next (drawnOnce 0) ∧
    exec (.drw 0 1 1) (drawnOnce 0) = .next (drawnTwice 0) ∧
    drawsPixel (drawing 0) 0 1 1 0 0 = true ∧ ((drawing 0).disp.get 0).getLsbD 7 = false :=
  ⟨by decide, by decide, by decide, rfl, rfl, by decide +kernel, by decide +kernel⟩

theorem witness_SecondDrawAlwaysCollides :
    SpriteInMemory (drawing 0x80) 1 1 ∧ (0 : Reg) ≠ VF ∧ (1 : Reg) ≠ VF ∧
    exec (.drw 0 1 1) (drawing 0x80) = .next (drawnOnce 0x80) ∧
    exec (.drw 0 1 1) (drawnOnce 0x80) = .next (drawnTwice 0x80) :=
  ⟨by decide, by decide, by decide, rfl, rfl⟩

/-- WritersOfIndex: each of its writers does change I. -/
theorem witness_WritersOfIndex :
    (step (start 0xA123) = .next (after (start 0xA123)) ∧
      (after (start 0xA123)).i ≠ (start 0xA123).i) ∧
    (step (regs [(2, 1)] (start 0xF21E)) = .next (after (regs [(2, 1)] (start 0xF21E))) ∧
      (after (regs [(2, 1)] (start 0xF21E))).i ≠ (regs [(2, 1)] (start 0xF21E)).i) ∧
    (step (start 0xF029) = .next (after (start 0xF029)) ∧
      (after (start 0xF029)).i ≠ (start 0xF029).i) ∧
    (step (start 0xF055) = .next (after (start 0xF055)) ∧
      (after (start 0xF055)).i ≠ (start 0xF055).i) ∧
    (step (start 0xF065) = .next (after (start 0xF065)) ∧
      (after (start 0xF065)).i ≠ (start 0xF065).i) :=
  ⟨⟨rfl, by decide⟩, ⟨rfl, by decide⟩, ⟨rfl, by decide⟩, ⟨rfl, by decide⟩, ⟨rfl, by decide⟩⟩

/-- A display with one byte set, under 00E0 and under a sprite. -/
def clearing : State := { start 0x00E0 with disp := marked 0xFF }
def blitting : State := sprite 0xD011 [0xFF]

/-- WritersOfDisplay: both writers do change it. -/
theorem witness_WritersOfDisplay :
    (step clearing = .next (after clearing) ∧ (after clearing).disp ≠ clearing.disp) ∧
    (step blitting = .next (after blitting) ∧ (after blitting).disp ≠ blitting.disp) := by
  refine ⟨⟨rfl, fun h => ?_⟩, ⟨rfl, fun h => ?_⟩⟩
  · exact absurd (congrArg (fun d : Display => d[0]?.getD 0) h) (by decide +kernel)
  · exact absurd (congrArg (fun d : Display => d[0]?.getD 0) h) (by decide +kernel)

/-- A return to 0x300. -/
def returning : State := { start 0x00EE with stack := [0x300] }

/-- WritersOfCallStack: a push and a pop. -/
theorem witness_WritersOfCallStack :
    (step (start 0x2400) = .next (after (start 0x2400)) ∧
      (after (start 0x2400)).stack ≠ (start 0x2400).stack) ∧
    (step returning = .next (after returning) ∧ (after returning).stack ≠ returning.stack) :=
  ⟨⟨rfl, by decide⟩, ⟨rfl, by decide⟩⟩

/-- A BCD store of 255 and a register store, both at the top of memory. -/
def storingBcd : State := regs [(0, 0xFF)] { start 0xF033 with i := 0xFFD }
def storingRegs : State := regs [(15, 7)] { start 0xFF55 with i := 0xFF0 }

/-- WritersOfMemory: both writers do change the last byte. -/
theorem witness_WritersOfMemory :
    (Memory.wf storingBcd.mem ∧ step storingBcd = .next (after storingBcd) ∧
      Memory.read (after storingBcd).mem 0xFFF ≠ Memory.read storingBcd.mem 0xFFF) ∧
    (Memory.wf storingRegs.mem ∧ step storingRegs = .next (after storingRegs) ∧
      Memory.read (after storingRegs).mem 0xFFF ≠ Memory.read storingRegs.mem 0xFFF) :=
  ⟨⟨by decide, rfl, by decide⟩, ⟨by decide, rfl, by decide⟩⟩

/-- Writes of the delay timer and of the sound timer. -/
def settingDt : State := regs [(3, 0x3C)] (start 0xF315)
def settingSt : State := regs [(3, 0x3C)] (start 0xF318)

/-- WritersOfTimers: each timer does change. -/
theorem witness_WritersOfTimers :
    (step settingDt = .next (after settingDt) ∧ (after settingDt).dt ≠ settingDt.dt) ∧
    (step settingSt = .next (after settingSt) ∧ (after settingSt).st ≠ settingSt.st) :=
  ⟨⟨rfl, by decide⟩, ⟨rfl, by decide⟩⟩

/-- Four kinds of writer of VF: a destination, a flag, a carry, a load of sixteen registers. -/
def flagWriters : List State :=
  [start 0x6FFF, regs [(0, 3)] (start 0x8015), regs [(0, 0xFF), (1, 1)] (start 0x8014),
   { start 0xFF65 with mem := Memory.write (start 0xFF65).mem 0x30F 0xAB, i := 0x300 }]

/-- WritersOfFlag: each of them does change VF. -/
theorem witness_WritersOfFlag :
    flagWriters.map (seen (readV · VF)) = [some 0xFF, some 1, some 1, some 0xAB] ∧
    flagWriters.map (readV · VF) = [0, 0, 0, 0] ∧
    (step (start 0x6FFF) = .next (after (start 0x6FFF)) ∧
      readV (after (start 0x6FFF)) VF ≠ readV (start 0x6FFF) VF) :=
  ⟨by decide, by decide, rfl, by decide⟩

/-- QuirksAndParametersStay: a step, and the two transactions that do change Q. -/
theorem witness_QuirksAndParametersStay :
    step (start 0x00E0) = .next (after (start 0x00E0)) ∧
    (∃ t a, transact (.setQuirks 0b111) State.reset = .next (t, a) ∧ t.q ≠ State.reset.q) ∧
    (∃ t a, transact .reset (withQ 0b111) = .next (t, a) ∧ t.q ≠ (withQ 0b111).q) :=
  ⟨rfl, ⟨_, _, rfl, by decide⟩, ⟨_, _, rfl, by decide⟩⟩

/-- SoundTimerIsNeverRead and StepAlwaysAnswersNext: a step. -/
theorem witness_SoundTimerIsNeverRead : step settingSt = .next (after settingSt) := rfl

/-- QuirksAlterOnlyTheirInstructions: an instruction that no quirk alters. -/
theorem witness_QuirksAlterOnlyTheirInstructions :
    exec (.addReg 0 1) State.reset = .next (nextOf State.reset (exec (.addReg 0 1) State.reset)) ∧
    (∀ x y, Instr.addReg 0 1 ≠ .shrReg x y ∧ Instr.addReg 0 1 ≠ .shlReg x y) ∧
    (∀ x, Instr.addReg 0 1 ≠ .ldMemVx x ∧ Instr.addReg 0 1 ≠ .ldVxMem x) ∧
    (∀ a, Instr.addReg 0 1 ≠ .jpV0 a) :=
  ⟨rfl, fun _ _ => ⟨Instr.noConfusion, Instr.noConfusion⟩,
    fun _ => ⟨Instr.noConfusion, Instr.noConfusion⟩, fun _ => Instr.noConfusion⟩

/-- A full call stack, its entries at the bound of R27, about to be popped. -/
def fullReturning : State := { start 0x00EE with stack := List.replicate 16 4096 }

/-- StepKeepsLegal. -/
theorem witness_StepKeepsLegal :
    fullReturning.Legal ∧ step fullReturning = .next (after fullReturning) := ⟨by decide, rfl⟩

/-- Every entry is at the bound of R27. -/
theorem fullReturning_pcBounded : fullReturning.PcBounded :=
  ⟨by decide, fun _ h => List.eq_of_mem_replicate h ▸ (by decide : (4096#16).toNat ≤ 4096)⟩

/-- StepKeepsPcBounded: return addresses and pc at their bounds. -/
theorem witness_StepKeepsPcBounded :
    (fullReturning.PcBounded ∧ step fullReturning = .next (after fullReturning)) ∧
    ((atPc 0x10FE).PcBounded ∧ step (atPc 0x10FE) = .next (after (atPc 0x10FE))) :=
  ⟨⟨fullReturning_pcBounded, rfl⟩, ⟨⟨by decide, List.forall_mem_nil _⟩, rfl⟩⟩

/-- HostRunKeepsInvariants. -/
theorem witness_HostRunKeepsInvariants : fullReturning.Legal ∧ fullReturning.PcBounded :=
  ⟨by decide, fullReturning_pcBounded⟩

/-- Memory with its first and its last byte set. -/
def ends : Memory := [(0, 1), (4095, 0xFF)]

/-- CanonicalMemoryIsUnique. -/
theorem witness_CanonicalMemoryIsUnique :
    Memory.wf ends ∧ Memory.wf (Memory.write (Memory.write [] 4095 0xFF) 0 1) ∧
    ∀ a, Memory.read ends a = Memory.read (Memory.write (Memory.write [] 4095 0xFF) 0 1) a :=
  ⟨by decide, by decide, fun _ => rfl⟩

/-- LoadFontCopiesGlyphs and LoadProgramCopiesOrRefuses: an image that just fits and one that does
not. -/
theorem witness_LoadFontCopiesGlyphs : Memory.wf ends := by decide

theorem witness_LoadProgramCopiesOrRefuses :
    Memory.wf ends ∧ (List.replicate 3584 (1 : Byte)).length ≤ 3584 ∧
    3584 < (List.replicate 3585 (1 : Byte)).length :=
  ⟨by decide, by rw [List.length_replicate], by rw [List.length_replicate]; decide⟩

/-- AdvanceRespondsWithStatus: a step for each of the codes 0 to 5 (their errors are in
`witness_StateAfterEachError`). -/
theorem witness_AdvanceRespondsWithStatus :
    step (start 0x1200) = .next (after (start 0x1200)) ∧
    step (atPc 4095) = .next (after (atPc 4095)) ∧ step (start 0x00EE) = .next (after (start 0x00EE)) ∧
    step (start 0x0123) = .next (after (start 0x0123)) ∧
    step { start 0x2400 with stack := fullStack } =
      .next (after { start 0x2400 with stack := fullStack }) ∧
    step { start 0xF033 with i := 0xFFE } = .next (after { start 0xF033 with i := 0xFFE }) :=
  ⟨rfl, rfl, rfl, rfl, rfl, rfl⟩

/-- PlacedWordRunsNext: at the last pc that fetches, and at one that does not. -/
theorem witness_PlacedWordRunsNext :
    Memory.wf (atPc 4094).mem ∧ (atPc 4094).pc.toNat < 4095 ∧ Memory.wf (atPc 4095).mem ∧
    ¬ (atPc 4095).pc.toNat < 4095 ∧ decodeTableWord 16 0xD125 = some (.drw 1 2 5) := by decide

end Sys2Proof.Tests
end

section
/-! SUPPORT. The proofs of the memory family (spec/20_memory.md). -/

namespace Sys2Proof.Machine

/-! ### A failed fetch ends the ADVANCE (R57, R75) -/

/-- A step whose fetch fails leaves the state alone, whatever the error. -/
theorem step_of_fetch_error {s : State} {e : Error} (h : fetch s = .error e) :
    step s = .next s := by
  simp only [step, h, raise_eq]

/-- The error of a failed fetch is the one the ADVANCE reports: it comes before decoding (R209). -/
theorem advanceError_of_fetch_error {s : State} {e : Error} (h : fetch s = .error e) :
    advanceError s = some e := by
  simp only [advanceError, h]

/-- Settles O10: the fetch bounds check fails first, so neither decode nor execute is reached. -/
theorem fetchOutOfBoundsChangesNothing : Obligations.FetchOutOfBoundsChangesNothing := by
  intro s hpc
  have hfetch := fetch_error_of_le hpc
  exact ⟨step_of_fetch_error hfetch, advanceError_of_fetch_error hfetch⟩

end Sys2Proof.Machine
end

section
/-! SUPPORT. The proofs of the flow family (spec/40_flow.md). -/

namespace Sys2Proof.Machine

/-! ### What a jump and the skips complete as: none has a check of its own (R209) -/

theorem jp_completesAs (s : State) (nnn : Word) : CompletesAs (.jp nnn) s (setPc s nnn) :=
  ⟨rfl, rfl⟩

theorem seByte_completesAs (s : State) (x : Reg) (nn : Byte) :
    CompletesAs (.seByte x nn) s (skipIf (readV s x == nn) s) := ⟨rfl, rfl⟩

theorem sneByte_completesAs (s : State) (x : Reg) (nn : Byte) :
    CompletesAs (.sneByte x nn) s (skipIf (readV s x != nn) s) := ⟨rfl, rfl⟩

theorem seReg_completesAs (s : State) (x y : Reg) :
    CompletesAs (.seReg x y) s (skipIf (readV s x == readV s y) s) := ⟨rfl, rfl⟩

theorem sneReg_completesAs (s : State) (x y : Reg) :
    CompletesAs (.sneReg x y) s (skipIf (readV s x != readV s y) s) := ⟨rfl, rfl⟩

/-! ### The state after a skip (R100) -/

/-- A skip writes only pc. -/
theorem skipIf_eq_update_pc (c : Bool) (s : State) :
    skipIf c s = { s with pc := if c then s.pc + 2 else s.pc } := by
  cases c with
  | true => rfl
  | false => rfl

/-- The skip of SE: over the next instruction when the operands are equal. -/
theorem skipIf_beq (s : State) (a b : Byte) :
    skipIf (a == b) s = { s with pc := if a = b then s.pc + 2 else s.pc } := by
  simp only [skipIf_eq_update_pc, beq_iff_eq]

/-- The skip of SNE: over the next instruction when the operands differ. -/
theorem skipIf_bne (s : State) (a b : Byte) :
    skipIf (a != b) s = { s with pc := if a = b then s.pc else s.pc + 2 } := by
  simp only [skipIf_eq_update_pc, bne_iff_ne, ne_eq, ite_not]

/-! ### The obligations -/

/-- Settles O19: the state after JP is the one `setPc` gives. -/
theorem jumpSetsPc : Obligations.JumpSetsPc := jp_completesAs

/-- Settles O21: SE skips on equality and SNE on its negation, whether the second operand is the
immediate or a register. -/
theorem skipsAddTwoWhenConditionHolds : Obligations.SkipsAddTwoWhenConditionHolds := by
  intro s x y nn
  refine ⟨?seByte, ?sneByte, ?seReg, ?sneReg⟩
  case seByte => exact skipIf_beq s _ _ ▸ seByte_completesAs s x nn
  case sneByte => exact skipIf_bne s _ _ ▸ sneByte_completesAs s x nn
  case seReg => exact skipIf_beq s _ _ ▸ seReg_completesAs s x y
  case sneReg => exact skipIf_bne s _ _ ▸ sneReg_completesAs s x y

end Sys2Proof.Machine
end

section
/-! SUPPORT. The proofs of the ALU family (spec/41_alu.md). -/

namespace Sys2Proof.Machine

/-- An instruction that ends in one register write, without a check of its own (R209), completes with
that register replaced and every other as before. -/
theorem completesWithRegisters_of_writeV {i : Instr} {s : State} {x : Reg} {u : Byte}
    (h : CompletesAs i s (writeV s x u)) :
    CompletesWithRegisters i s (fun r => if r = x then u else readV s r) :=
  ⟨writeV s x u, h, rfl, fun r => readV_writeV s x r u⟩

/-! ### What the loads and the immediate add complete as (R122, R123, R124) -/

theorem ldByte_completesAs (s : State) (x : Reg) (nn : Byte) :
    CompletesAs (.ldByte x nn) s (writeV s x nn) := ⟨rfl, rfl⟩

theorem ldReg_completesAs (s : State) (x y : Reg) :
    CompletesAs (.ldReg x y) s (writeV s x (readV s y)) := ⟨rfl, rfl⟩

theorem addByte_completesAs (s : State) (x : Reg) (nn : Byte) :
    CompletesAs (.addByte x nn) s (writeV s x (readV s x + nn)) := ⟨rfl, rfl⟩

/-! ### The obligation -/

/-- Settles O22: each of the three is one write of VX, so VF changes only where X is F; the sum of
7XNN is the exact one, cut to eight bits. -/
theorem loadsAndImmediateAdd : Obligations.LoadsAndImmediateAdd := by
  intro s x y nn
  refine ⟨?ldByte, ?ldReg, ?addByte⟩
  case ldByte => exact completesWithRegisters_of_writeV (ldByte_completesAs s x nn)
  case ldReg => exact completesWithRegisters_of_writeV (ldReg_completesAs s x y)
  case addByte =>
    rw [← BitVec.add_def]
    exact completesWithRegisters_of_writeV (addByte_completesAs s x nn)

end Sys2Proof.Machine
end

section
/-! SUPPORT. The proofs of the display family (spec/43_display.md). -/

namespace Sys2Proof.Machine

/-- Every byte of the cleared display is 0 (R170); `readPixel_cleared` says it of the pixels. -/
@[simp] theorem get_clearedDisplay (k : Fin 256) : clearedDisplay.get k = 0 :=
  Vector.getElem_replicate k.isLt

/-- CLS has no check of its own (R209), and completes with the cleared display. -/
theorem cls_completesAs (s : State) : CompletesAs .cls s (setDisp s clearedDisplay) := ⟨rfl, rfl⟩

/-- Settles O34: the state after CLS is the one `setDisp` gives with the cleared display, in which every
byte is 0 and so every pixel is off. -/
theorem clearTurnsEveryPixelOff : Obligations.ClearTurnsEveryPixelOff := by
  intro s
  refine ⟨setDisp s clearedDisplay, cls_completesAs s, ?frame, ?bytes, ?pixels⟩
  case frame => rfl
  case bytes => exact get_clearedDisplay
  case pixels => exact fun row _ col _ => readPixel_cleared (row * 64 + col)

end Sys2Proof.Machine
end

section
/-! SUPPORT. The execute step said once: what each instruction checks (R209) and the state it completes
in when its check passes. The proofs of the families below go through these equations. -/

namespace Sys2Proof.Machine

/-! ### The check of an instruction (R101, R103, R56) -/

/-- The error of the bounds check of `n` bytes from `base`, if it fails (R56). -/
def boundsError (base : Word) (n : Nat) : Option Error :=
  if n = 0 ∨ base.toNat + n ≤ memSize then none
  else some (.memoryOutOfBounds (lowestOffending base))

theorem errorOf_ifInBounds (base : Word) (n : Nat) (t : State) :
    errorOf (ifInBounds base n t) = boundsError base n := by
  unfold ifInBounds boundsError
  split <;> rfl

theorem boundsError_eq_none {base : Word} {n : Nat} :
    boundsError base n = none ↔ n = 0 ∨ base.toNat + n ≤ memSize := by
  simp [boundsError, or_iff_not_imp_left]

theorem boundsError_eq_some {base : Word} {n : Nat} (hn : n ≠ 0) (h : memSize < base.toNat + n) :
    boundsError base n = some (.memoryOutOfBounds (if 4096 ≤ base.toNat then base else 4096)) :=
  if_neg (by omega)

theorem boundsError_cases {base : Word} {n : Nat} {e : Error} (h : boundsError base n = some e) :
    e = .memoryOutOfBounds (lowestOffending base) := by
  unfold boundsError at h
  split at h
  · simp at h
  · simpa using h.symm

@[simp] theorem instrError_ret (s : State) :
    instrError .ret s = if s.stack = [] then some (.stackUnderflow (pc0 s)) else none := by
  rcases List.eq_nil_or_concat s.stack with hs | ⟨l, a, hs⟩
  · simp [instrError, errorOf, returnToCaller_nil hs, hs]
  · rw [List.concat_eq_append] at hs
    simp [instrError, errorOf, returnToCaller_append hs, hs]

@[simp] theorem instrError_call (a : Word) (s : State) :
    instrError (.call a) s =
      if s.stack.length = s.cfg.stackDepth then some (.stackOverflow (pc0 s)) else none := by
  by_cases h : s.stack.length = s.cfg.stackDepth
  · simp [instrError, errorOf, callTo, h]
  · simp [instrError, errorOf, callTo, h]

@[simp] theorem instrError_drw (x y : Reg) (n : Nat) (s : State) :
    instrError (.drw x y n) s = boundsError s.i (rowsDrawn s y n) := errorOf_ifInBounds ..

@[simp] theorem instrError_ldB (x : Reg) (s : State) :
    instrError (.ldB x) s = boundsError s.i 3 := errorOf_ifInBounds ..

@[simp] theorem instrError_ldMemVx (x : Reg) (s : State) :
    instrError (.ldMemVx x) s = boundsError s.i (x.val + 1) := errorOf_ifInBounds ..

@[simp] theorem instrError_ldVxMem (x : Reg) (s : State) :
    instrError (.ldVxMem x) s = boundsError s.i (x.val + 1) := errorOf_ifInBounds ..

/-- Every error an execute step can raise. -/
theorem instrError_cases {i : Instr} {s : State} {e : Error} (h : instrError i s = some e) :
    (i = .ret ∧ e = .stackUnderflow (pc0 s)) ∨ ((∃ a, i = .call a) ∧ e = .stackOverflow (pc0 s)) ∨
      e = .memoryOutOfBounds (lowestOffending s.i) := by
  cases i with
  | ret =>
    rw [instrError_ret] at h
    split at h
    · exact .inl ⟨rfl, by simpa using h.symm⟩
    · simp at h
  | call a =>
    rw [instrError_call] at h
    split at h
    · exact .inr (.inl ⟨⟨a, rfl⟩, by simpa using h.symm⟩)
    · simp at h
  | drw x y n => exact .inr (.inr (boundsError_cases (instrError_drw .. ▸ h)))
  | ldB x => exact .inr (.inr (boundsError_cases (instrError_ldB .. ▸ h)))
  | ldMemVx x => exact .inr (.inr (boundsError_cases (instrError_ldMemVx .. ▸ h)))
  | ldVxMem x => exact .inr (.inr (boundsError_cases (instrError_ldVxMem .. ▸ h)))
  | _ => simp [instrError] at h

/-! ### The state an instruction completes in -/

/-- The display and the collision after DXYN's blit (R171). -/
def drawn (x y : Reg) (n : Nat) (s : State) : Display × Bool :=
  blit s.mem s.i.toNat (anchorColumn s x) (anchorRow s y) (rowsDrawn s y n) s.disp

/-- The state after the execute step of an instruction that ends in no error; `exec_eq` ties it to
`exec`. -/
def effect (i : Instr) (s : State) : State :=
  match i with
  | .cls => setDisp s clearedDisplay
  | .ret => setPc (setStack s s.stack.dropLast) (s.stack.getLast?.getD s.pc)
  | .jp a => setPc s a
  | .call a => setPc (setStack s (s.stack ++ [s.pc])) a
  | .seByte x u => skipIf (readV s x == u) s
  | .sneByte x u => skipIf (readV s x != u) s
  | .seReg x y => skipIf (readV s x == readV s y) s
  | .sneReg x y => skipIf (readV s x != readV s y) s
  | .ldByte x u => writeV s x u
  | .addByte x u => writeV s x (readV s x + u)
  | .ldReg x y => writeV s x (readV s y)
  | .orReg x y => writeV s x (readV s x ||| readV s y)
  | .andReg x y => writeV s x (readV s x &&& readV s y)
  | .xorReg x y => writeV s x (readV s x ^^^ readV s y)
  | .addReg x y =>
    if s.cfg.addSetsCarry then
      writeFlagged s x (carryFlag (readV s x) (readV s y)) (readV s x + readV s y)
    else writeV s x (readV s x + readV s y)
  | .subReg x y => writeFlagged s x (greaterFlag (readV s x) (readV s y)) (readV s x - readV s y)
  | .shrReg x y =>
    writeFlagged s x (shiftedOutLow (shiftSource s x y)) (shiftSource s x y >>> 1)
  | .subnReg x y => writeFlagged s x (greaterFlag (readV s y) (readV s x)) (readV s y - readV s x)
  | .shlReg x y =>
    writeFlagged s x (shiftedOutHigh (shiftSource s x y)) (shiftSource s x y <<< 1)
  | .ldI a => setI s a
  | .jpV0 a => setPc s (a + zextV s (jumpOffsetReg s a))
  | .rnd x u => countDraw (writeV s x (rnd8 s &&& u))
  | .drw x y n => setDisp (writeV s VF (collisionFlag (drawn x y n s).2)) (drawn x y n s).1
  | .ldVxDt x => writeV s x s.dt
  | .ldDtVx x => setDt s (readV s x)
  | .ldStVx x => setSt s (readV s x)
  | .addI x => setI s (s.i + zextV s x)
  | .ldF x => setI s (glyphAddress s x)
  | .ldB x => setMem s (Memory.writeBytes s.mem s.i.toNat (bcdDigits (readV s x)))
  | .ldMemVx x => bumpIndex x (setMem s (Memory.writeBytes s.mem s.i.toNat (regsThrough s x)))
  | .ldVxMem x =>
    bumpIndex x (setV s (writeRegs s.v 0 (Memory.readBytes s.mem s.i.toNat (x.val + 1))))

/-- What a bounds-checked execute step ends in. -/
theorem settle_ifInBounds (s t : State) (base : Word) (n : Nat) :
    settle s (ifInBounds base n t) = .next (if boundsError base n = none then t else s) := by
  unfold ifInBounds boundsError
  split <;> rfl

/-- The execute step: the effect when the instruction's own check passes, and otherwise the state as
it is (R205). -/
theorem exec_eq (i : Instr) (s : State) :
    exec i s = .next (if instrError i s = none then effect i s else s) := by
  cases i with
  | ret =>
    rw [instrError_ret]
    rcases List.eq_nil_or_concat s.stack with hs | ⟨l, a, hs⟩
    · simp [exec, execRet, returnToCaller_nil hs, hs]
    · rw [List.concat_eq_append] at hs
      simp [exec, execRet, effect, returnToCaller_append hs, hs]
  | call a =>
    rw [instrError_call]
    by_cases h : s.stack.length = s.cfg.stackDepth
    · simp [exec, execCall, callTo, h]
    · simp [exec, execCall, callTo, effect, h]
  | drw x y n => rw [instrError_drw]; exact settle_ifInBounds ..
  | ldB x => rw [instrError_ldB]; exact settle_ifInBounds ..
  | ldMemVx x => rw [instrError_ldMemVx]; exact settle_ifInBounds ..
  | ldVxMem x => rw [instrError_ldVxMem]; exact settle_ifInBounds ..
  | _ => rfl

theorem exec_of_no_error {i : Instr} {s : State} (h : instrError i s = none) :
    exec i s = .next (effect i s) := by rw [exec_eq, if_pos h]

theorem exec_of_error {i : Instr} {s : State} {e : Error} (h : instrError i s = some e) :
    exec i s = .next s := by rw [exec_eq, if_neg (by simp [h])]

/-- An instruction whose check passes completes in its effect. -/
theorem completesAs_effect {i : Instr} {s : State} (h : instrError i s = none) :
    CompletesAs i s (effect i s) := ⟨exec_of_no_error h, h⟩

theorem endsInError_of_instrError {i : Instr} {s : State} {e : Error}
    (h : instrError i s = some e) : EndsInError i s e := ⟨exec_of_error h, h⟩

/-! ### An ADVANCE (R75) -/

theorem advanceError_of_decode {s : State} {w : Word} {i : Instr} (hw : fetch s = .ok w)
    (hi : decode w = .ok i) : advanceError s = instrError i (advancePc s) := by
  simp only [advanceError, hw, hi]

theorem step_of_unknown {s : State} {w : Word} {e : DecodeError} (hw : fetch s = .ok w)
    (he : decode w = .error e) : step s = .next (advancePc s) := by
  simp only [step, hw, he, raise_eq]

theorem advanceError_of_unknown {s : State} {w : Word} {e : DecodeError} (hw : fetch s = .ok w)
    (he : decode w = .error e) : advanceError s = some (.unknownInstruction w) := by
  simp only [advanceError, hw, he]

/-- The three ways an ADVANCE can go, each with its next state and its report. -/
theorem advance_cases (s : State) :
    (4095 ≤ s.pc.toNat ∧ step s = .next s ∧
      advanceError s = some (.programCounterOutOfBounds s.pc)) ∨
    (∃ w, fetch s = .ok w ∧ decode w = .error (.unknownInstruction w) ∧
      step s = .next (advancePc s) ∧ advanceError s = some (.unknownInstruction w)) ∨
    (∃ w i, fetch s = .ok w ∧ decode w = .ok i ∧
      step s = .next (if instrError i (advancePc s) = none then effect i (advancePc s)
        else advancePc s) ∧ advanceError s = instrError i (advancePc s)) := by
  rcases hf : fetch s with e | w
  · obtain ⟨hpc, rfl⟩ := fetch_error_cases hf
    exact .inl ⟨hpc, step_of_fetch_error hf, advanceError_of_fetch_error hf⟩
  · rcases hd : decode w with e | i
    · obtain rfl := (decode_error hd).1
      exact .inr (.inl ⟨w, rfl, hd, step_of_unknown hf hd, advanceError_of_unknown hf hd⟩)
    · exact .inr (.inr ⟨w, i, rfl, hd, by rw [step_of_decode hf hd, exec_eq],
        advanceError_of_decode hf hd⟩)

/-- Everything a step can do: nothing, the default PC advance alone, or the effect of a decoded
instruction whose check passed. -/
theorem step_outcomes {s t : State} (h : step s = .next t) :
    t = s ∨ (s.pc.toNat < 4095 ∧ t = advancePc s) ∨
      ∃ w i, fetch s = .ok w ∧ decode w = .ok i ∧ instrError i (advancePc s) = none ∧
        t = effect i (advancePc s) := by
  rcases advance_cases s with ⟨-, hs, -⟩ | ⟨w, hw, -, hs, -⟩ | ⟨w, i, hw, hi, hs, -⟩
  all_goals
    rw [hs, Host.Outcome.next.injEq] at h
    subst h
  · exact .inl rfl
  · exact .inr (.inl ⟨(fetch_ok_cases hw).1, rfl⟩)
  · split
    · exact .inr (.inr ⟨w, i, hw, hi, ‹_›, rfl⟩)
    · exact .inr (.inl ⟨(fetch_ok_cases hw).1, rfl⟩)

/-- A step that changes something the default PC advance leaves alone is the effect of a decoded
instruction whose check passed. -/
theorem effect_of_step_changes {α : Type} (f : State → α) {s t : State}
    (hf : f (advancePc s) = f s) (h : step s = .next t) (hne : f t ≠ f s) :
    ∃ w i, fetch s = .ok w ∧ decode w = .ok i ∧ instrError i (advancePc s) = none ∧
      t = effect i (advancePc s) := by
  rcases step_outcomes h with rfl | ⟨-, rfl⟩ | heffect
  · exact absurd rfl hne
  · exact absurd hf hne
  · exact heffect

end Sys2Proof.Machine
end

section
/-! SUPPORT. The proofs of the decoder's statements (spec/30_encoding.md). -/

namespace Sys2Proof

open Sys2Proof.Laws

/-! ### From an instruction to its word and back -/

/-- An instruction's encoding has the fixed bits of its row of R80. -/
theorem encode_matches_row (i : Instr) : EncodeMatchesRow.Statement i := by
  cases i with
  | cls => exact EncodeMatchesRow.cls
  | ret => exact EncodeMatchesRow.ret
  | jp a => exact EncodeMatchesRow.jp a
  | call a => exact EncodeMatchesRow.call a
  | seByte x u => exact EncodeMatchesRow.seByte x u
  | sneByte x u => exact EncodeMatchesRow.sneByte x u
  | seReg x y => exact EncodeMatchesRow.seReg x y
  | sneReg x y => exact EncodeMatchesRow.sneReg x y
  | ldByte x u => exact EncodeMatchesRow.ldByte x u
  | addByte x u => exact EncodeMatchesRow.addByte x u
  | ldReg x y => exact EncodeMatchesRow.ldReg x y
  | orReg x y => exact EncodeMatchesRow.orReg x y
  | andReg x y => exact EncodeMatchesRow.andReg x y
  | xorReg x y => exact EncodeMatchesRow.xorReg x y
  | addReg x y => exact EncodeMatchesRow.addReg x y
  | subReg x y => exact EncodeMatchesRow.subReg x y
  | shrReg x y => exact EncodeMatchesRow.shrReg x y
  | subnReg x y => exact EncodeMatchesRow.subnReg x y
  | shlReg x y => exact EncodeMatchesRow.shlReg x y
  | ldI a => exact EncodeMatchesRow.ldI a
  | jpV0 a => exact EncodeMatchesRow.jpV0 a
  | rnd x u => exact EncodeMatchesRow.rnd x u
  | drw x y n => exact EncodeMatchesRow.drw x y n
  | ldVxDt x => exact EncodeMatchesRow.ldVxDt x
  | ldDtVx x => exact EncodeMatchesRow.ldDtVx x
  | ldStVx x => exact EncodeMatchesRow.ldStVx x
  | addI x => exact EncodeMatchesRow.addI x
  | ldF x => exact EncodeMatchesRow.ldF x
  | ldB x => exact EncodeMatchesRow.ldB x
  | ldMemVx x => exact EncodeMatchesRow.ldMemVx x
  | ldVxMem x => exact EncodeMatchesRow.ldVxMem x

/-- The row of a well-formed instruction builds it back from its word: the operands are the fields. -/
theorem build_encode {i : Instr} (h : i.wellFormed = true) :
    (opcodeMap[(EncodeMatchesRow.rowIndex i).val]'(EncodeMatchesRow.rowIndex i).isLt).build
      (encode i) = i := by
  cases i with
  | jp a => exact congrArg Instr.jp (fieldNNN_wordKNNN _ h)
  | call a => exact congrArg Instr.call (fieldNNN_wordKNNN _ h)
  | ldI a => exact congrArg Instr.ldI (fieldNNN_wordKNNN _ h)
  | jpV0 a => exact congrArg Instr.jpV0 (fieldNNN_wordKNNN _ h)
  | drw x y n =>
    have hn : n % 16 = n := Nat.mod_eq_of_lt (by simpa [Instr.wellFormed, heightFits] using h)
    simp [EncodeMatchesRow.rowIndex, opcodeMap, opcodeRowsFlow, opcodeRowsAlu, opcodeRowsMisc,
      encode, hn]
  | _ =>
    simp [EncodeMatchesRow.rowIndex, opcodeMap, opcodeRowsFlow, opcodeRowsAlu, opcodeRowsMisc, encode]

theorem decode_encode {i : Instr} (h : i.wellFormed = true) : decode (encode i) = .ok i := by
  rw [decode_of_accepts (List.getElem_mem (EncodeMatchesRow.rowIndex i).isLt) (encode_matches_row i),
    build_encode h]

/-- The bytes of a word decode as the word does, whatever follows them (R51, R70). -/
theorem decodeBytes_of_decode {w : Word} {i : Instr} (h : decode w = .ok i) (rest : List Byte) :
    decodeBytes (bytesOfWord w ++ rest) = .ok (i, rest) := by
  simp [bytesOfWord, decodeBytes, wordOfBytes_bytes, h]

/-- Settles O7: the row that an encoding matches is the row the decoder uses, and it builds the
instruction back. -/
theorem decodeOfEncode : Obligations.DecodeOfEncode := by
  intro i rest h
  exact ⟨decode_encode h, decodeBytes_of_decode (decode_encode h) rest⟩

/-! ### From a word to its instruction and back: a word is its pattern's digits and its fields -/

theorem append_inj {m n : Nat} {a c : BitVec m} {b d : BitVec n} (h : a ++ b = c ++ d) :
    a = c ∧ b = d :=
  ⟨by simpa only [BitVec.extractLsb'_append_eq_left] using congrArg (BitVec.extractLsb' n m) h,
    by simpa only [BitVec.extractLsb'_append_eq_right] using congrArg (BitVec.extractLsb' 0 n) h⟩

section
variable {b : Word → Instr} {k : BitVec 4} {w : Word}

theorem wordKNNN_of_accepts (h : (OpcodeRow.mk 0xF000 (k ++ 0#12) b).accepts w = true) :
    wordKNNN k (fieldNNN w) = w := by
  have h' : w &&& 0xF000#16 = k ++ 0#12 := eq_of_beq h
  rw [and_F000] at h'
  rw [← (append_inj h').1, wordKNNN_fields]

theorem wordKXNN_of_accepts (h : (OpcodeRow.mk 0xF000 (k ++ 0#12) b).accepts w = true) :
    wordKXNN k (fieldX w) (fieldNN w) = w := by
  have h' : w &&& 0xF000#16 = k ++ 0#12 := eq_of_beq h
  rw [and_F000] at h'
  rw [← (append_inj h').1, wordKXNN_fields]

theorem wordKXY_of_accepts (h : (OpcodeRow.mk 0xF000 (k ++ 0#12) b).accepts w = true) :
    wordKXYN k (fieldX w) (fieldY w) (BitVec.ofNat 4 (fieldN w)) = w := by
  have h' : w &&& 0xF000#16 = k ++ 0#12 := eq_of_beq h
  rw [and_F000] at h'
  rw [← (append_inj h').1, fieldN, BitVec.ofNat_toNat, BitVec.setWidth_eq, wordKXYN_fields]

theorem wordKXYN_of_accepts {n : BitVec 4}
    (h : (OpcodeRow.mk 0xF00F (k ++ 0#8 ++ n) b).accepts w = true) :
    wordKXYN k (fieldX w) (fieldY w) n = w := by
  have h' : w &&& 0xF00F#16 = k ++ 0#8 ++ n := eq_of_beq h
  rw [and_F00F] at h'
  obtain ⟨h1, h2⟩ := append_inj h'
  rw [← (append_inj h1).1, ← h2, wordKXYN_fields]

theorem wordKX_of_accepts {u : Byte}
    (h : (OpcodeRow.mk 0xF0FF (k ++ 0#4 ++ u) b).accepts w = true) :
    wordKXNN k (fieldX w) u = w := by
  have h' : w &&& 0xF0FF#16 = k ++ 0#4 ++ u := eq_of_beq h
  rw [and_F0FF] at h'
  obtain ⟨h1, h2⟩ := append_inj h'
  rw [← (append_inj h1).1, ← h2]
  exact wordKXNN_fields w

theorem eq_of_accepts {p : Word} (h : (OpcodeRow.mk 0xFFFF p b).accepts w = true) : p = w := by
  have h' : w &&& 0xFFFF#16 = p := eq_of_beq h
  rw [← h', and_FFFF]

end

/-- What a row builds from a word it accepts is encoded as that word. -/
def OpcodeRow.Inverts (r : OpcodeRow) : Prop := ∀ w, r.accepts w = true → encode (r.build w) = w

theorem opcodeRowsFlow_invert : ∀ r ∈ opcodeRowsFlow, r.Inverts := by
  simp only [opcodeRowsFlow, List.forall_mem_cons]
  exact ⟨fun _ h => eq_of_accepts h, fun _ h => eq_of_accepts h,
    fun _ h => wordKNNN_of_accepts (k := 0x1) h, fun _ h => wordKNNN_of_accepts (k := 0x2) h,
    fun _ h => wordKXNN_of_accepts (k := 0x3) h, fun _ h => wordKXNN_of_accepts (k := 0x4) h,
    fun _ h => wordKXYN_of_accepts (k := 0x5) (n := 0x0) h,
    fun _ h => wordKXYN_of_accepts (k := 0x9) (n := 0x0) h, List.forall_mem_nil _⟩

theorem opcodeRowsAlu_invert : ∀ r ∈ opcodeRowsAlu, r.Inverts := by
  simp only [opcodeRowsAlu, List.forall_mem_cons]
  exact ⟨fun _ h => wordKXNN_of_accepts (k := 0x6) h, fun _ h => wordKXNN_of_accepts (k := 0x7) h,
    fun _ h => wordKXYN_of_accepts (k := 0x8) (n := 0x0) h,
    fun _ h => wordKXYN_of_accepts (k := 0x8) (n := 0x1) h,
    fun _ h => wordKXYN_of_accepts (k := 0x8) (n := 0x2) h,
    fun _ h => wordKXYN_of_accepts (k := 0x8) (n := 0x3) h,
    fun _ h => wordKXYN_of_accepts (k := 0x8) (n := 0x4) h,
    fun _ h => wordKXYN_of_accepts (k := 0x8) (n := 0x5) h,
    fun _ h => wordKXYN_of_accepts (k := 0x8) (n := 0x6) h,
    fun _ h => wordKXYN_of_accepts (k := 0x8) (n := 0x7) h,
    fun _ h => wordKXYN_of_accepts (k := 0x8) (n := 0xE) h, List.forall_mem_nil _⟩

theorem opcodeRowsMisc_invert : ∀ r ∈ opcodeRowsMisc, r.Inverts := by
  simp only [opcodeRowsMisc, List.forall_mem_cons]
  exact ⟨fun _ h => wordKNNN_of_accepts (k := 0xA) h, fun _ h => wordKNNN_of_accepts (k := 0xB) h,
    fun _ h => wordKXNN_of_accepts (k := 0xC) h, fun _ h => wordKXY_of_accepts (k := 0xD) h,
    fun _ h => wordKX_of_accepts (k := 0xF) (u := 0x07) h,
    fun _ h => wordKX_of_accepts (k := 0xF) (u := 0x15) h,
    fun _ h => wordKX_of_accepts (k := 0xF) (u := 0x18) h,
    fun _ h => wordKX_of_accepts (k := 0xF) (u := 0x1E) h,
    fun _ h => wordKX_of_accepts (k := 0xF) (u := 0x29) h,
    fun _ h => wordKX_of_accepts (k := 0xF) (u := 0x33) h,
    fun _ h => wordKX_of_accepts (k := 0xF) (u := 0x55) h,
    fun _ h => wordKX_of_accepts (k := 0xF) (u := 0x65) h, List.forall_mem_nil _⟩

theorem opcodeMap_inverts {r : OpcodeRow} (h : r ∈ opcodeMap) : r.Inverts := by
  rw [opcodeMap, List.mem_append, List.mem_append] at h
  rcases h with (h | h) | h
  · exact opcodeRowsFlow_invert r h
  · exact opcodeRowsAlu_invert r h
  · exact opcodeRowsMisc_invert r h

theorem encode_of_decode {w : Word} {i : Instr} (h : decode w = .ok i) : encode i = w := by
  obtain ⟨r, hr, hw, rfl⟩ := row_of_decode h
  exact opcodeMap_inverts hr w hw

/-- Settles O8: the row that a word matches fixes every bit outside the fields, and the instruction
carries the fields. -/
theorem encodeOfDecode : Obligations.EncodeOfDecode :=
  fun _ _ h => ⟨wellFormed_of_decode h, encode_of_decode h⟩

/-! ### The rows one by one (R72, R80) -/

/-- A word with the fixed bits of the k-th row of R80 decodes to what that row builds. -/
theorem decode_row (k : Fin 31) (w : Word) (h : w &&& opcodeMap[k].mask = opcodeMap[k].pattern) :
    decode w = .ok (opcodeMap[k].build w) :=
  decode_of_accepts (List.getElem_mem k.isLt) (beq_iff_eq.2 h)

section
variable {w : Word}

theorem eq_fieldX {x : Reg} (h : x.val = w.toNat / 256 % 16) : x = fieldX w :=
  Fin.ext (by simp [fieldX, h, Nat.shiftRight_eq_div_pow])

theorem eq_fieldY {y : Reg} (h : y.val = w.toNat / 16 % 16) : y = fieldY w :=
  Fin.ext (by simp [fieldY, h, Nat.shiftRight_eq_div_pow])

theorem eq_fieldN {n : Nat} (h : n = w.toNat % 16) : n = fieldN w := by simp [fieldN, h]

theorem eq_fieldNN {u : Byte} (h : u.toNat = w.toNat % 256) : u = fieldNN w :=
  BitVec.eq_of_toNat_eq (by simp [fieldNN, h])

theorem eq_fieldNNN {a : Word} (h : a.toNat = w.toNat % 4096) : a = fieldNNN w :=
  BitVec.eq_of_toNat_eq (by
    rw [h, fieldNNN, BitVec.toNat_setWidth, BitVec.extractLsb'_toNat, Nat.shiftRight_zero]
    omega)

end

/-- Settles O4, row by row in the order of R80, with the fields read as the decoder reads them. -/
theorem opcodeMapDecodes : Obligations.OpcodeMapDecodes := by
  intro w x y n nn nnn hx hy hn hnn hnnn
  obtain rfl := eq_fieldX hx
  obtain rfl := eq_fieldY hy
  obtain rfl := eq_fieldN hn
  obtain rfl := eq_fieldNN hnn
  obtain rfl := eq_fieldNNN hnnn
  exact ⟨decode_row 0 w, decode_row 1 w, decode_row 2 w, decode_row 3 w, decode_row 4 w,
    decode_row 5 w, decode_row 6 w, decode_row 7 w, decode_row 8 w, decode_row 9 w, decode_row 10 w,
    decode_row 11 w, decode_row 12 w, decode_row 13 w, decode_row 14 w, decode_row 15 w,
    decode_row 16 w, decode_row 17 w, decode_row 18 w, decode_row 19 w, decode_row 20 w,
    decode_row 21 w, decode_row 22 w, decode_row 23 w, decode_row 24 w, decode_row 25 w,
    decode_row 26 w, decode_row 27 w, decode_row 28 w, decode_row 29 w, decode_row 30 w⟩

/-- Settles O3: each of the words has its row's fixed bits, and 0x5121 has none's. -/
theorem writtenWordsDecode : Obligations.WrittenWordsDecode := by
  unfold Obligations.WrittenWordsDecode
  decide

/-! ### The words outside the map (R81, R86) -/

theorem toNat_wordKNNN (k : BitVec 4) (a : Word) :
    (wordKNNN k a).toNat = k.toNat * 4096 + a.toNat % 4096 := by
  rw [wordKNNN, BitVec.toNat_append, BitVec.toNat_setWidth, ← Nat.shiftLeft_add_eq_or_of_lt
    (Nat.mod_lt _ (by decide)), Nat.shiftLeft_eq]

theorem toNat_wordKXNN (k : BitVec 4) (x : Reg) (u : Byte) :
    (wordKXNN k x u).toNat = k.toNat * 4096 + x.val * 256 + u.toNat := by
  rw [wordKXNN, BitVec.toNat_append, BitVec.toNat_append, ← Nat.shiftLeft_add_eq_or_of_lt u.isLt,
    ← Nat.shiftLeft_add_eq_or_of_lt (regBits x).isLt, toNat_regBits, Nat.shiftLeft_eq,
    Nat.shiftLeft_eq]
  omega

theorem toNat_wordKXYN (k : BitVec 4) (x y : Reg) (n : BitVec 4) :
    (wordKXYN k x y n).toNat = k.toNat * 4096 + x.val * 256 + y.val * 16 + n.toNat := by
  rw [wordKXYN, BitVec.toNat_append, BitVec.toNat_append, BitVec.toNat_append,
    ← Nat.shiftLeft_add_eq_or_of_lt n.isLt, ← Nat.shiftLeft_add_eq_or_of_lt (regBits y).isLt,
    ← Nat.shiftLeft_add_eq_or_of_lt (regBits x).isLt, toNat_regBits, toNat_regBits,
    Nat.shiftLeft_eq, Nat.shiftLeft_eq, Nat.shiftLeft_eq]
  omega

/-- The five groups of R86, of the number a word stands for. -/
def Undescribed (m : Nat) : Prop :=
  (m / 4096 = 0 ∧ m ≠ 0x0E0 ∧ m ≠ 0x0EE) ∨
  ((m / 4096 = 5 ∨ m / 4096 = 9) ∧ m % 16 ≠ 0) ∨
  (m / 4096 = 8 ∧ m % 16 ∈ [0x8, 0x9, 0xA, 0xB, 0xC, 0xD, 0xF]) ∨
  m / 4096 = 0xE ∨
  (m / 4096 = 0xF ∧ m % 256 ∉ [0x07, 0x15, 0x18, 0x1E, 0x29, 0x33, 0x55, 0x65])

/-- The ten leading digits all of whose words R80 describes. -/
theorem not_undescribed_of_digit {m : Nat} (h : m / 4096 ∈ [1, 2, 3, 4, 6, 7, 10, 11, 12, 13]) :
    ¬ Undescribed m := by
  simp only [List.mem_cons, List.not_mem_nil, or_false] at h
  unfold Undescribed
  omega

theorem not_undescribed_wordKNNN {k : BitVec 4} (hk : k.toNat ∈ [1, 2, 10, 11]) (a : Word) :
    ¬ Undescribed (wordKNNN k a).toNat := by
  have hd : (wordKNNN k a).toNat / 4096 = k.toNat := by rw [toNat_wordKNNN]; omega
  refine not_undescribed_of_digit (hd ▸ ?_)
  simp only [List.mem_cons, List.not_mem_nil, or_false] at hk ⊢
  omega

theorem not_undescribed_wordKXNN {k : BitVec 4} (hk : k.toNat ∈ [3, 4, 6, 7, 12]) (x : Reg)
    (u : Byte) : ¬ Undescribed (wordKXNN k x u).toNat := by
  have hd : (wordKXNN k x u).toNat / 4096 = k.toNat := by rw [toNat_wordKXNN]; omega
  refine not_undescribed_of_digit (hd ▸ ?_)
  simp only [List.mem_cons, List.not_mem_nil, or_false] at hk ⊢
  omega

theorem not_undescribed_wordKXYN {k n : BitVec 4} (x y : Reg)
    (h : (k.toNat = 5 ∨ k.toNat = 9) ∧ n.toNat = 0 ∨
      k.toNat = 8 ∧ n.toNat ∈ [0, 1, 2, 3, 4, 5, 6, 7, 14] ∨ k.toNat = 13) :
    ¬ Undescribed (wordKXYN k x y n).toNat := by
  rw [toNat_wordKXYN]
  simp only [Undescribed, List.mem_cons, List.not_mem_nil, or_false] at h ⊢
  omega

theorem not_undescribed_wordKX {k : BitVec 4} {u : Byte} (x : Reg) (hk : k.toNat = 15)
    (hu : u.toNat ∈ [0x07, 0x15, 0x18, 0x1E, 0x29, 0x33, 0x55, 0x65]) :
    ¬ Undescribed (wordKXNN k x u).toNat := by
  rw [toNat_wordKXNN]
  simp only [Undescribed, List.mem_cons, List.not_mem_nil, or_false] at hu ⊢
  omega

/-- No instruction is encoded in one of those groups: the digits of its word are its row's. -/
theorem not_undescribed_encode (i : Instr) : ¬ Undescribed (encode i).toNat := by
  cases i with
  | cls => unfold Undescribed; decide
  | ret => unfold Undescribed; decide
  | jp a | call a | ldI a | jpV0 a => exact not_undescribed_wordKNNN (by decide) a
  | seByte x u | sneByte x u | ldByte x u | addByte x u | rnd x u =>
    exact not_undescribed_wordKXNN (by decide) x u
  | seReg x y | sneReg x y | ldReg x y | orReg x y | andReg x y | xorReg x y | addReg x y
  | subReg x y | shrReg x y | subnReg x y | shlReg x y =>
    exact not_undescribed_wordKXYN x y (by decide)
  | drw x y n => exact not_undescribed_wordKXYN x y (.inr (.inr rfl))
  | ldVxDt x | ldDtVx x | ldStVx x | addI x | ldF x | ldB x | ldMemVx x | ldVxMem x =>
    exact not_undescribed_wordKX x rfl (by decide)

/-- Settles O5: a word that decodes is the encoding of its instruction, and none of the five groups
holds an encoding. -/
theorem undescribedWordsAreUnknown : Obligations.UndescribedWordsAreUnknown := by
  intro w hw
  rcases hd : decode w with e | i
  · rw [(decode_error hd).1]
  · obtain rfl := encode_of_decode hd
    exact absurd hw (not_undescribed_encode i)

/-- Two rows of the map that accept the same word are the same row. -/
theorem row_unique {r t : OpcodeRow} {w : Word} (hr : r ∈ opcodeMap) (ht : t ∈ opcodeMap)
    (hrw : r.accepts w = true) (htw : t.accepts w = true) : t = r := by
  have h := find_of_accepts opcodeMap_disjoint hr hrw
  rw [find_of_accepts opcodeMap_disjoint ht htw] at h
  exact Option.some.inj h

/-- Settles O6: the decoder answers from a row that accepts the word, and no second row does. -/
theorem decodingIsTotal : Obligations.DecodingIsTotal := by
  intro w
  rcases hd : decode w with e | i
  · obtain ⟨rfl, hnone⟩ := decode_error hd
    exact .inr ⟨hnone, rfl⟩
  · obtain ⟨r, hr, hw, rfl⟩ := row_of_decode hd
    refine .inl ⟨r, hr, hw, rfl, fun t ht htw => ?_⟩
    rw [row_unique hr ht hw htw]
    exact ⟨rfl, rfl⟩

end Sys2Proof
end

section
/-! SUPPORT. The proofs of the statements about an ADVANCE (spec/30_encoding.md, spec/60_exceptions.md). -/

namespace Sys2Proof.Machine

/-! ### Fetch and one step -/

/-- The fetched word, as the number its two bytes stand for (R51). -/
theorem fetch_of_bytes {s : State} {w : Word} (hpc : s.pc.toNat < 4095)
    (hw : w.toNat = (Memory.read s.mem s.pc.toNat).toNat * 256 +
      (Memory.read s.mem (s.pc.toNat + 1)).toNat) : fetch s = .ok w := by
  rw [fetch_of_lt hpc]
  exact congrArg Except.ok (BitVec.eq_of_toNat_eq (by rw [toNat_wordOfBytes, hw]))

/-- Settles O9: the fetch gives the word, so the step and the report are those of its instruction. -/
theorem stepRunsDecodedInstruction : Obligations.StepRunsDecodedInstruction := by
  intro s w i hpc hw hi
  have hf := fetch_of_bytes hpc hw
  exact ⟨step_of_decode hf hi, advanceError_of_decode hf hi⟩

/-- Settles O11: the default PC advance comes before the report of the unknown word. -/
theorem unknownWordIsSteppedOver : Obligations.UnknownWordIsSteppedOver := by
  intro s w hpc hw he
  have hf := fetch_of_bytes hpc hw
  exact ⟨step_of_unknown hf he, advanceError_of_unknown hf he⟩

/-- Settles O12: each of the three ways an ADVANCE can go answers a next state. -/
theorem stepAlwaysAnswersNext : Obligations.StepAlwaysAnswersNext := by
  intro s
  rcases advance_cases s with ⟨-, hs, -⟩ | ⟨w, -, -, hs, -⟩ | ⟨w, i, -, -, hs, -⟩
  · exact ⟨_, hs⟩
  · exact ⟨_, hs⟩
  · exact ⟨_, hs⟩

/-! ### The pc and the errors (R25, R205) -/

/-- A skip's pc, in the terms of R25. -/
theorem add_two_add_two (a : Word) : a + 2 + 2 = a + 4 := by rw [BitVec.add_assoc]; rfl

/-- The byte BNNN adds, in the terms of R108. -/
theorem readV_jumpOffsetReg (s : State) (a : Word) :
    readV s (jumpOffsetReg s a) =
      if s.q.getLsbD 2 then readV s (fieldX a) else readV s 0 :=
  apply_ite (readV s) (quirkJump s = true) (fieldX a) 0

/-- The effect leaves the pc that R25 gives for the kind of instruction. -/
theorem effect_advancePc_pc (i : Instr) (s : State) : (effect i (advancePc s)).pc = nextPc i s := by
  cases i with
  | seByte x u | seReg x y =>
    simp only [effect, nextPc, skipIf_beq, advancePc_pc, readV_advancePc, add_two_add_two]
  | sneByte x u | sneReg x y =>
    simp only [effect, nextPc, skipIf_bne, advancePc_pc, readV_advancePc, add_two_add_two]
  | addReg x y =>
    simp only [effect]
    split
    · rfl
    · rfl
  | jpV0 a => exact congrArg (fun u : Byte => a + u.setWidth 16) (readV_jumpOffsetReg _ a)
  | ldMemVx x | ldVxMem x => simp [effect, nextPc]
  | _ => rfl

/-- Settles O13: with a passed check the pc is the effect's, with a failed one the default advance's. -/
theorem pcAfterAdvance : Obligations.PcAfterAdvance := by
  intro s t h
  refine ⟨fun hpc => ?_, fun w hw he => ?_, fun w i hw hi => ?_⟩
  · rw [step_of_fetch_error (fetch_error_of_le hpc), Host.Outcome.next.injEq] at h
    rw [h]
  · rw [step_of_unknown hw he, Host.Outcome.next.injEq] at h
    rw [← h, advancePc_pc]
  · rw [step_of_decode hw hi, exec_eq, Host.Outcome.next.injEq] at h
    rw [← h, advanceError_of_decode hw hi]
    split
    · exact effect_advancePc_pc i s
    · rfl

theorem loadProgram_of_tooLarge {bytes : List Byte} (s : State) (h : 4096 < 0x200 + bytes.length) :
    loadProgram bytes s = .error .programTooLarge := if_pos h

/-- A LOAD_PROGRAM that is too large writes nothing and answers code 6 (R247). -/
theorem transact_loadProgram_of_tooLarge {bytes : List Byte} (s : State)
    (h : 4096 < 0x200 + bytes.length) :
    transact (.loadProgram bytes) s = .next (s, .status 6 0) := by
  simp only [transact, loadProgram_of_tooLarge s h]
  rfl

/-- Settles O14: a failed fetch reports its own error, an unknown word its own, and a failed check of
the execute step one of the other three, all from the state after the default PC advance. -/
theorem stateAfterEachError : Obligations.StateAfterEachError := by
  refine ⟨fun s e he => ?_, fun s bytes h => transact_loadProgram_of_tooLarge s h⟩
  rcases advance_cases s with ⟨-, hs, ha⟩ | ⟨w, -, -, hs, ha⟩ | ⟨w, i, -, -, hs, ha⟩
  · obtain rfl := Option.some.inj (ha.symm.trans he)
    exact hs
  · obtain rfl := Option.some.inj (ha.symm.trans he)
    exact hs
  · have hi : instrError i (advancePc s) = some e := ha.symm.trans he
    rw [hi, if_neg (Option.some_ne_none e)] at hs
    rcases instrError_cases hi with ⟨-, rfl⟩ | ⟨-, rfl⟩ | rfl
    · exact hs
    · exact hs
    · exact hs

/-! ### Repeated ADVANCEs and the jump to itself (R212, R250) -/

theorem transact_advance {s t : State} (h : step s = .next t) :
    transact .advance s = .next (t, report (advanceError s)) := by
  simp only [transact, h, answer]

theorem runHost_cons {r : Request} {rs : List Request} {s t u : State} {a : Response}
    {as : List Response} (h : transact r s = .next (t, a)) (hs : runHost rs t = .next (u, as)) :
    runHost (r :: rs) s = .next (u, a :: as) := by
  simp only [runHost, h, hs]

/-- Settles O15, by induction on the number of ADVANCEs: each one meets the state of the first. -/
theorem failingPcRepeats : Obligations.FailingPcRepeats := by
  intro s k hpc
  obtain ⟨hstep, herr⟩ := fetchOutOfBoundsChangesNothing s hpc
  have h1 : transact .advance s = .next (s, .status 1 s.pc) := by
    rw [transact_advance hstep, herr]
    rfl
  induction k with
  | zero => rfl
  | succ k ih => exact runHost_cons h1 ih

/-- Settles O16: the word is the encoding of the jump to pc, and its effect undoes the PC advance. -/
theorem jumpToItselfHalts : Obligations.JumpToItselfHalts := by
  intro s w hw hnum
  obtain ⟨hpc, -⟩ := fetch_ok_cases hw
  have hfits : (Instr.jp s.pc).wellFormed = true :=
    decide_eq_true (p := s.pc.toNat < 4096) (by omega)
  have henc : w = encode (.jp s.pc) := by
    apply BitVec.eq_of_toNat_eq
    have hjp : (encode (.jp s.pc)).toNat = 0x1000 + s.pc.toNat % 4096 := toNat_wordKNNN 0x1 s.pc
    rw [hnum, hjp]
    omega
  have hi : decode w = .ok (.jp s.pc) := henc ▸ decode_encode hfits
  exact ⟨step_of_decode hw hi, advanceError_of_decode hw hi⟩

/-! ### The response of an ADVANCE (R208) -/

theorem advancePc_pc0 (s : State) : pc0 (advancePc s) = s.pc := by
  simp [pc0]

/-- Settles O59: the report of each way an ADVANCE can go, with `pc0` read back from `pc0 + 2`. -/
theorem advanceRespondsWithStatus : Obligations.AdvanceRespondsWithStatus := by
  intro s t h
  refine ⟨_, _, transact_advance h, ?_⟩
  rcases advance_cases s with ⟨-, -, ha⟩ | ⟨w, hw, -, -, ha⟩ | ⟨w, i, -, -, -, ha⟩
  · rw [ha]
    exact .inr (.inl ⟨rfl, rfl, rfl⟩)
  · rw [ha]
    exact .inr (.inr (.inr (.inl ⟨rfl, rfl, hw⟩)))
  · rw [ha]
    rcases he : instrError i (advancePc s) with _ | e
    · exact .inl ⟨rfl, rfl, rfl⟩
    · rcases instrError_cases he with ⟨-, rfl⟩ | ⟨-, rfl⟩ | rfl
      · exact .inr (.inr (.inl ⟨rfl, rfl, advancePc_pc0 s⟩))
      · exact .inr (.inr (.inr (.inr (.inl ⟨rfl, rfl, advancePc_pc0 s⟩))))
      · exact .inr (.inr (.inr (.inr (.inr ⟨rfl, rfl, rfl⟩))))

/-! ### The placed word (log entry 9) -/

/-- The pc at which `placeFetchWord` places: where it is when a fetch there succeeds. -/
theorem placeFetchWord_pc (s : State) (w : Word) :
    (placeFetchWord s w).pc = if 4095 ≤ s.pc.toNat then programBase else s.pc := by
  unfold placeFetchWord
  split
  · rfl
  · rfl

theorem placeFetchWord_mem (s : State) (w : Word) :
    (placeFetchWord s w).mem =
      Memory.writeBytes s.mem (placeFetchWord s w).pc.toNat (bytesOfWord w) := by
  unfold placeFetchWord
  split
  · rfl
  · rfl

/-- What is placed is what is fetched. -/
theorem fetch_placeFetchWord {s : State} (w : Word) (hm : Memory.wf s.mem) :
    fetch (placeFetchWord s w) = .ok w := by
  have hpc : (placeFetchWord s w).pc.toNat < 4095 := by
    rw [placeFetchWord_pc]
    split
    · decide
    · omega
  have hfit : (placeFetchWord s w).pc.toNat + (bytesOfWord w).length ≤ memSize := by
    simp only [bytesOfWord, List.length_cons, List.length_nil, memSize]
    omega
  rw [fetch_of_lt hpc, placeFetchWord_mem, Memory.read_writeBytes _ _ _ hm hfit,
    Memory.read_writeBytes _ _ _ hm hfit]
  simp [bytesOfWord, wordOfBytes_bytes]

theorem decode_of_decodeTableWord {w : Nat} {i : Instr} (h : decodeTableWord 16 w = some i) :
    decode (BitVec.ofNat 16 (w % 2 ^ 16)) = .ok i := by
  rcases hd : decode (BitVec.ofNat 16 (w % 2 ^ 16)) with e | j
  · simp only [decodeTableWord, decodeBytes, bytesOfWord, wordOfBytes_bytes, hd, reduceCtorEq] at h
  · have hb := decodeBytes_of_decode hd []
    rw [List.append_nil] at hb
    simp only [decodeTableWord, hb, Option.some.injEq] at h
    rw [h]

/-- Settles O60: the placed word is fetched, and it decodes to the table word's instruction. -/
theorem placedWordRunsNext : Obligations.PlacedWordRunsNext := by
  intro s w i hm hi
  refine ⟨fun hpc => ?_, ?_⟩
  · rw [State.withFetchWord, placeFetchWord_pc, if_neg (by omega)]
  · exact step_of_decode (fetch_placeFetchWord _ hm) (decode_of_decodeTableWord hi)

end Sys2Proof.Machine
end

section
/-! SUPPORT. The proofs about RET, CALL and JP V0 (spec/40_flow.md). -/

namespace Sys2Proof.Machine

/-- Settles O17: the check of RET is whether the stack is empty; its effect takes the last entry. -/
theorem returnPopsIntoPc : Obligations.ReturnPopsIntoPc := by
  refine fun s => ⟨fun l a hs => ?_, fun hs => endsInError_of_instrError ?_⟩
  · have hok : instrError .ret s = none := by simp [hs]
    refine ⟨?_, hok⟩
    rw [exec_of_no_error hok]
    simp [effect, hs, setPc, setStack]
  · rw [instrError_ret, if_pos hs]
    rfl

/-- Settles O18: the check of CALL is whether the stack holds STACK_DEPTH entries. -/
theorem callPushesAndJumps : Obligations.CallPushesAndJumps := by
  refine fun s a => ⟨fun hs => ?_, fun hs => endsInError_of_instrError ?_⟩
  · exact completesAs_effect (by rw [instrError_call, if_neg hs])
  · rw [instrError_call, if_pos hs]
    rfl

/-- A 12-bit address and a byte add without a carry out of 16 bits (R108). -/
theorem toNat_address_add_byte {a : Word} (ha : a.toNat < 4096) (u : Byte) :
    (a + u.setWidth 16).toNat = a.toNat + u.toNat := by
  have := u.isLt
  rw [BitVec.toNat_add, BitVec.toNat_setWidth]
  omega

/-- The top nibble of a 12-bit address, as the decoder's field (R108). -/
theorem fieldX_of_address {a : Word} {x : Reg} (hx : x.val = a.toNat / 256) : fieldX a = x :=
  (eq_fieldX (by omega)).symm

/-- Settles O20: the sum is exact, and the quirk chooses its register. -/
theorem jumpWithOffset : Obligations.JumpWithOffset := by
  intro s a ha
  refine ⟨_, completesAs_effect rfl, rfl, fun hq => ?_, fun x hq hx => ?_⟩
  · exact (toNat_address_add_byte ha _).trans (by rw [readV_jumpOffsetReg, hq, if_neg (by decide)])
  · exact (toNat_address_add_byte ha _).trans
      (by rw [readV_jumpOffsetReg, hq, if_pos rfl, fieldX_of_address hx])

end Sys2Proof.Machine
end

section
/-! SUPPORT. The proofs about the ALU and the random byte (spec/41_alu.md). -/

namespace Sys2Proof.Machine

/-- An instruction that ends in a flagged write completes with the result in VX, the flag in VF unless
VX is VF, and every other register as before (R121). -/
theorem completesWithRegisters_of_writeFlagged {i : Instr} {s : State} {x : Reg} {flag result : Byte}
    (h : CompletesAs i s (writeFlagged s x flag result)) :
    CompletesWithRegisters i s (fun r =>
      if r = x then result else if r = VF then flag else readV s r) :=
  ⟨_, h, rfl, fun r => readV_writeFlagged s x r flag result⟩

/-- Settles O23: each of the three is one write of VX, so VF changes only where X is F. -/
theorem bitwiseOperations : Obligations.BitwiseOperations := by
  intro s x y
  refine ⟨_, _, _, completesWithRegisters_of_writeV (completesAs_effect rfl),
    completesWithRegisters_of_writeV (completesAs_effect rfl),
    completesWithRegisters_of_writeV (completesAs_effect rfl), fun r hr => ?_, fun b _ => ?_⟩
  · exact ⟨if_neg hr, if_neg hr, if_neg hr⟩
  · simp

theorem effect_addReg_of_carry {s : State} (hc : s.cfg.addSetsCarry = true) (x y : Reg) :
    effect (.addReg x y) s =
      writeFlagged s x (carryFlag (readV s x) (readV s y)) (readV s x + readV s y) := if_pos hc

theorem effect_addReg_of_no_carry {s : State} (hc : ¬ s.cfg.addSetsCarry = true) (x y : Reg) :
    effect (.addReg x y) s = writeV s x (readV s x + readV s y) := if_neg hc

/-- Settles O24: with ADD_SETS_CARRY a flagged write, without it a plain one. -/
theorem addRegisters : Obligations.AddRegisters := by
  intro s x y
  have h : CompletesAs (.addReg x y) s (effect (.addReg x y) s) := completesAs_effect rfl
  rw [← BitVec.add_def]
  by_cases hc : s.cfg.addSetsCarry = true
  · rw [effect_addReg_of_carry hc] at h
    simpa [hc, carryFlag, flagByte] using completesWithRegisters_of_writeFlagged h
  · rw [effect_addReg_of_no_carry hc] at h
    simpa [hc] using completesWithRegisters_of_writeV h

/-- The difference modulo 256, computed without going below 0 (R129). -/
theorem ofNat_sub_toNat (a b : Byte) : BitVec.ofNat 8 (256 + a.toNat - b.toNat) = a - b := by
  apply BitVec.eq_of_toNat_eq
  have := a.isLt
  have := b.isLt
  rw [BitVec.toNat_ofNat, BitVec.toNat_sub]
  omega

/-- Settles O25: both are flagged writes, with the operands exchanged. -/
theorem subtractRegisters : Obligations.SubtractRegisters := by
  intro s x y
  rw [ofNat_sub_toNat, ofNat_sub_toNat]
  have hsub := completesWithRegisters_of_writeFlagged (completesAs_effect (i := .subReg x y) (s := s) rfl)
  have hsubn :=
    completesWithRegisters_of_writeFlagged (completesAs_effect (i := .subnReg x y) (s := s) rfl)
  exact ⟨by simpa [greaterFlag, flagByte] using hsub, by simpa [greaterFlag, flagByte] using hsubn⟩

/-! ### A shift by one and the bit it shifts out (R130, R132) -/

theorem ushiftRight_one_eq (u : Byte) : u >>> 1 = BitVec.ofNat 8 (u.toNat / 2) := by
  apply BitVec.eq_of_toNat_eq
  have := u.isLt
  rw [BitVec.toNat_ushiftRight, BitVec.toNat_ofNat, Nat.shiftRight_eq_div_pow]
  omega

theorem shiftLeft_one_eq (u : Byte) : u <<< 1 = BitVec.ofNat 8 (u.toNat * 2 % 256) := by
  apply BitVec.eq_of_toNat_eq
  rw [BitVec.toNat_shiftLeft, BitVec.toNat_ofNat, Nat.shiftLeft_eq]
  omega

/-- A flag that is a bit of a byte, as a number. -/
theorem flagByte_getLsbD (u : Byte) (k : Nat) :
    flagByte (u.getLsbD k) = BitVec.ofNat 8 (u.toNat / 2 ^ k % 2) := by
  rw [BitVec.getLsbD, Nat.testBit_eq_decide_div_mod_eq]
  rcases Nat.mod_two_eq_zero_or_one (u.toNat / 2 ^ k) with h | h
  · rw [h]
    rfl
  · rw [h]
    rfl

theorem shiftedOutLow_eq (u : Byte) : shiftedOutLow u = BitVec.ofNat 8 (u.toNat % 2) := by
  rw [shiftedOutLow, flagByte_getLsbD, Nat.pow_zero, Nat.div_one]

theorem shiftedOutHigh_eq (u : Byte) : shiftedOutHigh u = BitVec.ofNat 8 (u.toNat / 128) := by
  have := u.isLt
  rw [shiftedOutHigh, flagByte_getLsbD, Nat.mod_eq_of_lt (by omega)]
  rfl

/-- Settles O26: both are flagged writes of the shifted source. -/
theorem shiftByOne : Obligations.ShiftByOne := by
  intro s x y src hsrc
  obtain rfl : src = shiftSource s x y := hsrc
  rw [← ushiftRight_one_eq, ← shiftLeft_one_eq, ← shiftedOutLow_eq, ← shiftedOutHigh_eq]
  exact ⟨completesWithRegisters_of_writeFlagged (completesAs_effect rfl),
    completesWithRegisters_of_writeFlagged (completesAs_effect rfl)⟩

/-- Settles O27: one write of VX, and one count of the sample. -/
theorem randomByteIsMasked : Obligations.RandomByteIsMasked := by
  intro s x u
  refine ⟨_, completesAs_effect rfl, rfl, fun r hr => ?_, fun b _ => ?_⟩
  · rw [effect, readV_countDraw, readV_writeV, if_neg hr]
  · rw [effect, readV_countDraw, readV_writeV, if_pos rfl, rnd8, BitVec.getLsbD_and]

end Sys2Proof.Machine
end

section
/-! SUPPORT. The proofs about the index register and the memory transfers
(spec/42_index_memory.md). -/

namespace Sys2Proof.Machine

/-- The glyph address never wraps: FONT_BASE leaves room for it (R153). -/
theorem toNat_glyphAddress (s : State) (x : Reg) :
    (glyphAddress s x).toNat = s.cfg.fontBase.val + 5 * (readV s x).toNat := by
  have := (readV s x).isLt
  have := s.cfg.fontBase.isLt
  rw [glyphAddress, BitVec.toNat_ofNat]
  omega

/-- Settles O28: each is one write of I. -/
theorem indexRegisterWrites : Obligations.IndexRegisterWrites := by
  intro s x a
  refine ⟨completesAs_effect rfl, ⟨_, completesAs_effect rfl, rfl, ?_⟩,
    ⟨_, completesAs_effect rfl, rfl, toNat_glyphAddress s x⟩⟩
  have := (readV s x).isLt
  rw [effect, setI_i, BitVec.toNat_add, zextV, BitVec.toNat_setWidth]
  omega

/-! ### FX33 (R154) -/

theorem length_bcdDigits (u : Byte) : (bcdDigits u).length = 3 := rfl

/-- What memory reads after FX33's write. -/
theorem read_ldB {s : State} {x : Reg} (hm : Memory.wf s.mem) (hi : s.i.toNat + 2 < 4096) (a : Nat) :
    Memory.read (effect (.ldB x) s).mem a =
      if h : s.i.toNat ≤ a ∧ a - s.i.toNat < 3 then (bcdDigits (readV s x))[a - s.i.toNat]'h.2
      else Memory.read s.mem a :=
  Memory.read_writeBytes _ _ _ hm (by simp only [length_bcdDigits, memSize]; omega)

/-- Settles O29: the check is on the last of the three bytes, and the digits each fit a byte. -/
theorem bcdStore : Obligations.BcdStore := by
  intro s x hm
  refine ⟨fun hi => ?_, fun hi => endsInError_of_instrError ?_⟩
  · have hok : instrError (.ldB x) s = none := by
      rw [instrError_ldB, boundsError_eq_none]
      simp only [memSize]
      omega
    have := (readV s x).isLt
    refine ⟨_, exec_of_no_error hok, hok, rfl, ?hundreds, ?tens, ?units, fun a ha => ?frame⟩
    case hundreds | tens | units =>
      rw [read_ldB hm hi, dif_pos (by omega)]
      simp [bcdDigits]
      omega
    case frame => rw [read_ldB hm hi, dif_neg (by omega)]
  · rw [instrError_ldB]
    exact boundsError_eq_some (by decide) (by simp only [memSize]; omega)

/-! ### FX55 and FX65 (R155, R156) -/

theorem length_regsThrough (s : State) (x : Reg) : (regsThrough s x).length = x.val + 1 := by
  simp [regsThrough]

theorem getElem_regsThrough (s : State) (x : Reg) {k : Nat} (h : k < (regsThrough s x).length)
    (hk : k < 16) : (regsThrough s x)[k] = readV s ⟨k, hk⟩ := by
  simp [regsThrough, readV, Vector.get_eq_getElem]

theorem bumpIndex_eq_update_i (x : Reg) (s : State) :
    bumpIndex x s = { s with i := (bumpIndex x s).i } := by
  unfold bumpIndex
  split
  · rfl
  · rfl

/-- The index after FX55 and FX65 inside memory never wraps. -/
theorem toNat_bumpIndex_i {s : State} {x : Reg} (hi : s.i.toNat + x.val < 4096) :
    (bumpIndex x s).i.toNat =
      if s.q.getLsbD 1 = true then s.i.toNat else s.i.toNat + x.val + 1 := by
  rw [bumpIndex_i, quirkLoadstore]
  split
  · rfl
  · rw [BitVec.toNat_add, BitVec.toNat_ofNat]
    omega

/-- The bounds check of FX55 and FX65. -/
theorem transfer_ok {s : State} {x : Reg} (hi : s.i.toNat + x.val < 4096) :
    boundsError s.i (x.val + 1) = none := by
  rw [boundsError_eq_none]
  simp only [memSize]
  omega

theorem transfer_error {s : State} {x : Reg} (hi : 4096 ≤ s.i.toNat + x.val) :
    boundsError s.i (x.val + 1) =
      some (.memoryOutOfBounds (if 4096 ≤ s.i.toNat then s.i else 4096)) :=
  boundsError_eq_some (by omega) (by simp only [memSize]; omega)

/-- What memory reads after FX55's write. -/
theorem read_ldMemVx {s : State} {x : Reg} (hm : Memory.wf s.mem) (hi : s.i.toNat + x.val < 4096)
    (a : Nat) :
    Memory.read (effect (.ldMemVx x) s).mem a =
      if h : s.i.toNat ≤ a ∧ a - s.i.toNat < (regsThrough s x).length then
        (regsThrough s x)[a - s.i.toNat]'h.2
      else Memory.read s.mem a := by
  rw [effect, bumpIndex_mem, setMem_mem]
  exact Memory.read_writeBytes _ _ _ hm (by simp only [length_regsThrough, memSize]; omega)

/-- Settles O30: the bytes are V0 to VX in order, and the check is on the last of them. -/
theorem registerStore : Obligations.RegisterStore := by
  intro s x hm
  refine ⟨fun hi => ?_, fun hi => endsInError_of_instrError ?_⟩
  · have hok : instrError (.ldMemVx x) s = none := by rw [instrError_ldMemVx, transfer_ok hi]
    refine ⟨_, exec_of_no_error hok, hok, ?_, toNat_bumpIndex_i hi, fun k hk => ?_, fun a ha => ?_⟩
    · rw [effect, bumpIndex_mem, setMem_mem]
      exact bumpIndex_eq_update_i x _
    · have hl := length_regsThrough s x
      have e : s.i.toNat + k.val - s.i.toNat = k.val := by omega
      rw [read_ldMemVx hm hi, dif_pos (by omega), getElem_regsThrough _ _ _ (by omega)]
      simp only [e]
    · rw [read_ldMemVx hm hi, dif_neg (by rw [length_regsThrough]; omega)]
  · rw [instrError_ldMemVx, transfer_error hi]

/-- What the registers read after FX65. -/
theorem readV_ldVxMem (s : State) (x k : Reg) :
    readV (effect (.ldVxMem x) s) k =
      if k.val ≤ x.val then Memory.read s.mem (s.i.toNat + k.val) else readV s k := by
  rw [effect, readV_bumpIndex, readV_setV, Vector.get_eq_getElem]
  have hg := getElem_writeRegs s.v 0 (Memory.readBytes s.mem s.i.toNat (x.val + 1)) k.val k.isLt
  rw [hg]
  by_cases hk : k.val ≤ x.val
  · rw [dif_pos (by rw [Memory.length_readBytes]; omega), if_pos hk, Memory.getElem_readBytes,
      Nat.sub_zero]
  · rw [dif_neg (by rw [Memory.length_readBytes]; omega), if_neg hk]
    rfl

/-- Settles O31: the bytes go to V0 to VX in order, and the check is on the last of them. -/
theorem registerLoad : Obligations.RegisterLoad := by
  intro s x
  refine ⟨fun hi => ?_, fun hi => endsInError_of_instrError ?_⟩
  · have hok : instrError (.ldVxMem x) s = none := by rw [instrError_ldVxMem, transfer_ok hi]
    refine ⟨_, exec_of_no_error hok, hok, ?_, toNat_bumpIndex_i hi, fun k hk => ?_, fun k hk => ?_⟩
    · rw [effect, bumpIndex_v, setV_v]
      exact bumpIndex_eq_update_i x _
    · rw [readV_ldVxMem, if_pos hk]
    · rw [readV_ldVxMem, if_neg (by omega)]
  · rw [instrError_ldVxMem, transfer_error hi]

/-- The byte at `I + k` after FX55 with X of k or more is Vk, whatever state `t` the step is said to
end in. -/
theorem read_of_exec_ldMemVx {s t : State} {x k : Reg} (hm : Memory.wf s.mem)
    (hi : s.i.toNat + x.val < 4096) (h : exec (.ldMemVx x) s = .next t) (hk : k.val ≤ x.val) :
    Memory.read t.mem (s.i.toNat + k.val) = readV s k := by
  obtain ⟨t', ht', -, -, -, hread, -⟩ := (registerStore s x hm).1 hi
  obtain rfl := Host.Outcome.next.inj (h.symm.trans ht')
  exact hread k hk

/-- Settles O32: what FX65 reads at `I + k` is what FX55 wrote there. -/
theorem storeThenLoadRestores : Obligations.StoreThenLoadRestores := by
  intro s t u x v hm hi hstore hload k hk
  obtain ⟨u', hu', -, -, -, hread, -⟩ := (registerLoad { t with v := v, i := s.i } x).1 hi
  obtain rfl := Host.Outcome.next.inj (hload.symm.trans hu')
  exact (hread k hk).trans (read_of_exec_ldMemVx (t := t) hm hi hstore hk)

/-- Settles O33: the two bytes of the word are two of the bytes FX55 stored. -/
theorem fetchSeesStoredBytes : Obligations.FetchSeesStoredBytes := by
  intro s t x k j hm hi hstore hj hjx
  have hpc : (s.i + BitVec.ofNat 16 k.val).toNat = s.i.toNat + k.val := by
    rw [BitVec.toNat_add, BitVec.toNat_ofNat]
    omega
  refine ⟨_, fetch_of_lt (by rw [hpc]; omega), ?_⟩
  rw [toNat_wordOfBytes, hpc, Nat.add_assoc, ← hj,
    read_of_exec_ldMemVx hm hi hstore (by omega), read_of_exec_ldMemVx hm hi hstore hjx]

end Sys2Proof.Machine
end

section
/-! SUPPORT. The proofs about DXYN (spec/43_display.md), from the closed form of the blit. -/

namespace Sys2Proof.Machine

/-! ### The check, the pixels and the collision of one draw -/

section
variable {s t : State} {y : Reg} {n : Nat}

/-- DXYN's check passes exactly when its drawn rows lie in memory; a sprite of height 0 draws none
(R174, R177). -/
theorem instrError_drw_eq_none (x : Reg) :
    instrError (.drw x y n) s = none ↔ SpriteInMemory s y n := by
  rw [instrError_drw, boundsError_eq_none, rowsDrawn, anchorRow]
  simp only [SpriteInMemory, memSize]
  omega

theorem instrError_drw_eq_some (x : Reg) (h : ¬ SpriteInMemory s y n) :
    instrError (.drw x y n) s =
      some (.memoryOutOfBounds (if 4096 ≤ s.i.toNat then s.i else 4096)) := by
  simp only [SpriteInMemory] at h
  rw [instrError_drw]
  exact boundsError_eq_some (by rw [rowsDrawn, anchorRow]; omega)
    (by simp only [rowsDrawn, anchorRow, memSize]; omega)

/-- A draw that is in memory ends in the effect. -/
theorem exec_drw {x : Reg} (h : SpriteInMemory s y n) :
    exec (.drw x y n) s = .next (effect (.drw x y n) s) :=
  exec_of_no_error ((instrError_drw_eq_none x).2 h)

theorem eq_effect_of_exec_drw {x : Reg} (h : SpriteInMemory s y n)
    (ht : exec (.drw x y n) s = .next t) :
    t = effect (.drw x y n) s :=
  Host.Outcome.next.inj (ht.symm.trans (exec_drw h))

end

/-- No row is drawn below the bottom edge (R173). -/
theorem anchorRow_add_rowsDrawn_le (s : State) (y : Reg) (n : Nat) :
    anchorRow s y + rowsDrawn s y n ≤ 32 := by
  unfold rowsDrawn anchorRow
  omega

/-- Each pixel of the display after the draw (R175). -/
theorem readPixel_drw (s : State) (x y : Reg) (n : Nat) (row : Nat) {col : Nat} (hc : col < 64) :
    readPixel (effect (.drw x y n) s).disp (row * 64 + col) =
      (readPixel s.disp (row * 64 + col) ^^ drawsPixel s x y n row col) :=
  blit_pixel _ _ _ _ (anchorRow_add_rowsDrawn_le s y n) hc s.disp

/-- The collision of the draw (R176). -/
theorem drawn_hit (s : State) (x y : Reg) (n : Nat) :
    (drawn x y n s).2 = true ↔ ∃ row < 32, ∃ col < 64,
      drawsPixel s x y n row col = true ∧ readPixel s.disp (row * 64 + col) = true :=
  blit_hit _ _ _ _ (anchorRow_add_rowsDrawn_le s y n) s.disp

theorem readV_drw (s : State) (x y : Reg) (n : Nat) (r : Reg) :
    readV (effect (.drw x y n) s) r =
      if r = VF then flagByte (drawn x y n s).2 else readV s r := by
  rw [effect, readV_setDisp, readV_writeV, collisionFlag]

theorem flagByte_eq_one {b : Bool} : flagByte b = 1 ↔ b = true := by
  cases b with
  | true => decide
  | false => decide

theorem flagByte_cases (b : Bool) : flagByte b = 0 ∨ flagByte b = 1 := by
  cases b with
  | true => exact .inr rfl
  | false => exact .inl rfl

/-- VF after the draw is its collision. -/
theorem readV_drw_VF (s : State) (x y : Reg) (n : Nat) :
    readV (effect (.drw x y n) s) VF = 1 ↔ (drawn x y n s).2 = true := by
  rw [readV_drw, if_pos rfl, flagByte_eq_one]

theorem readV_drw_VF_cases (s : State) (x y : Reg) (n : Nat) :
    readV (effect (.drw x y n) s) VF = 0 ∨ readV (effect (.drw x y n) s) VF = 1 := by
  rw [readV_drw, if_pos rfl]
  exact flagByte_cases _

/-! ### One draw -/

/-- Settles O35: bit `7 - c` of byte `k` is the pixel that the blit inverts or leaves. -/
theorem spriteInvertsCoveredPixels : Obligations.SpriteInvertsCoveredPixels := by
  intro s x y n h
  refine ⟨_, exec_drw h, (instrError_drw_eq_none x).2 h, fun k c => ?_⟩
  rw [← readPixel_of_byte, ← readPixel_of_byte]
  exact readPixel_drw s x y n _ (by omega)

/-- Settles O36: VF is written after the blit, with its collision, and the pixels are bits of the
display bytes (R30). -/
theorem spriteCollisionFlag : Obligations.SpriteCollisionFlag := by
  intro s x y n h
  have hVF := readV_drw_VF s x y n
  rw [drawn_hit, exists_pixel_iff_exists_bit (fun row col => drawsPixel s x y n row col = true)] at hVF
  exact ⟨_, exec_drw h, hVF.2,
    fun hno => (readV_drw_VF_cases s x y n).resolve_right fun h1 => hno (hVF.1 h1)⟩

/-- Settles O37: the effect writes VF and the display; a failed check writes nothing. -/
theorem spriteFrame : Obligations.SpriteFrame := by
  intro s t x y n h
  rw [exec_eq, Host.Outcome.next.injEq] at h
  split at h
  · subst h
    exact ⟨rfl, fun r hr => by rw [readV_drw, if_neg hr]⟩
  · subst h
    exact ⟨rfl, fun _ _ => rfl⟩

/-- Settles O38: the check is on the drawn rows alone. -/
theorem spriteOutOfBounds : Obligations.SpriteOutOfBounds := by
  intro s x y n
  exact ⟨fun h => endsInError_of_instrError (instrError_drw_eq_some x h),
    (instrError_drw_eq_none x).2⟩

/-- A sprite of height 0 meets no pixel (R177). -/
theorem drawn_zero (x y : Reg) (s : State) : drawn x y 0 s = (s.disp, false) := by
  rw [drawn, rowsDrawn, Nat.zero_min]
  rfl

/-- Settles O39: with no row drawn the check passes and the blit leaves the display alone. -/
theorem spriteOfHeightZero : Obligations.SpriteOfHeightZero := by
  intro s x y
  have hok : instrError (.drw x y 0) s = none := (instrError_drw_eq_none x).2 (.inl rfl)
  refine ⟨hok, _, completesAs_effect hok, ?_, fun r => ?_⟩
  · rw [effect, drawn_zero]
    rfl
  · rw [readV_drw, drawn_zero]
    rfl

/-! ### Two equal draws -/

section
variable {s : State} {x y : Reg} {n : Nat}

/-- A draw whose coordinates are not VF leaves where the next one starts. -/
theorem drawsPixel_drw (hx : x ≠ VF) (hy : y ≠ VF) (row col : Nat) :
    drawsPixel (effect (.drw x y n) s) x y n row col = drawsPixel s x y n row col := by
  unfold drawsPixel
  rw [readV_drw, readV_drw, if_neg hx, if_neg hy]
  rfl

theorem spriteInMemory_drw (hy : y ≠ VF) (h : SpriteInMemory s y n) :
    SpriteInMemory (effect (.drw x y n) s) y n := by
  unfold SpriteInMemory
  rw [readV_drw, if_neg hy]
  exact h

/-- The second draw inverts what the first one inverted. -/
theorem disp_drw_drw (hx : x ≠ VF) (hy : y ≠ VF) :
    (effect (.drw x y n) (effect (.drw x y n) s)).disp = s.disp := by
  refine display_ext fun p hp => ?_
  obtain ⟨row, col, hcol, rfl⟩ : ∃ row col, col < 64 ∧ p = row * 64 + col :=
    ⟨p / 64, p % 64, by omega, by omega⟩
  rw [readPixel_drw _ _ _ _ _ hcol, readPixel_drw _ _ _ _ _ hcol, drawsPixel_drw hx hy,
    Bool.xor_assoc, Bool.xor_self, Bool.xor_false]

/-- The second draw meets a pixel that is on exactly where the first one turned it on. -/
theorem drawn_drw_hit (hx : x ≠ VF) (hy : y ≠ VF) :
    (drawn x y n (effect (.drw x y n) s)).2 = true ↔ ∃ row < 32, ∃ col < 64,
      drawsPixel s x y n row col = true ∧ readPixel s.disp (row * 64 + col) = false := by
  have hpixel (row col : Nat) (hcol : col < 64) :
      (drawsPixel (effect (.drw x y n) s) x y n row col = true ∧
        readPixel (effect (.drw x y n) s).disp (row * 64 + col) = true) ↔
      (drawsPixel s x y n row col = true ∧ readPixel s.disp (row * 64 + col) = false) := by
    rw [drawsPixel_drw hx hy, readPixel_drw _ _ _ _ _ hcol]
    refine and_congr_right fun hdraws => ?_
    rw [hdraws, Bool.xor_true, Bool.not_eq_true']
  rw [drawn_hit]
  exact exists_congr fun row => and_congr_right fun _ => exists_congr fun col =>
    and_congr_right fun hcol => hpixel row col hcol

end

/-- Settles O40: the second draw starts where the first did, inverts the same pixels again, and meets
those that the first one turned on. -/
theorem spriteDrawnTwiceRestores : Obligations.SpriteDrawnTwiceRestores := by
  intro s t u x y n h hx hy ht hu
  obtain rfl := eq_effect_of_exec_drw h ht
  obtain rfl := eq_effect_of_exec_drw (spriteInMemory_drw hy h) hu
  refine ⟨disp_drw_drw hx hy, ?_, readV_drw_VF_cases _ x y n⟩
  rw [readV_drw_VF, drawn_drw_hit hx hy,
    exists_pixel_iff_exists_bit (fun row col => drawsPixel s x y n row col = true)]

/-- A sprite of one set bit at I, over a display in which that pixel is on: the counterexample of
log entry 17. -/
def coveredPixelOn : State :=
  { State.reset with i := 0x300, mem := [(0x300, 0x80)], disp := clearedDisplay.set 0 0x80 }

/-- Refutes O41: drawn at (0, 0) on that display, the first draw turns the only covered pixel off, so
the second meets none that is on, though the set bit lies inside the display. -/
theorem not_secondDrawAlwaysCollides : ¬ Obligations.SecondDrawAlwaysCollides := by
  intro h
  have hin : SpriteInMemory coveredPixelOn 1 1 := by decide
  have h2 := h coveredPixelOn _ _ 0 1 1 hin (by decide) (by decide) (exec_drw hin)
    (exec_drw (spriteInMemory_drw (by decide) hin))
  have hcovered : drawsPixel coveredPixelOn 0 1 1 0 0 = true := by decide
  have hflag : readV (effect (.drw 0 1 1) (effect (.drw 0 1 1) coveredPixelOn)) VF = 0 := by
    decide +kernel
  have hset := h2.2 ⟨0, by decide, 0, by decide, hcovered⟩
  rw [hflag] at hset
  exact absurd hset (by decide)

end Sys2Proof.Machine
end

section
/-! SUPPORT. The proof about the timer instructions (spec/44_timers.md). -/

namespace Sys2Proof.Machine

/-- Settles O42: FX07 is one write of VX, FX15 and FX18 one write of their timer. -/
theorem timerInstructions : Obligations.TimerInstructions := by
  intro s x
  exact ⟨completesWithRegisters_of_writeV (completesAs_effect rfl), completesAs_effect rfl,
    completesAs_effect rfl⟩

end Sys2Proof.Machine
end

section
/-! SUPPORT. What each field of the state is written by: the proofs about the writers, read off the
effect (spec/10_state.md, spec/20_memory.md). -/

namespace Sys2Proof.Machine

/-! ### The fields that no instruction writes (R20, R32) -/

/-- 8XY4 writes registers only, and reads only registers and the parameter. -/
theorem effect_addReg_eq_update_v (x y : Reg) {s t : State} (hv : t.v = s.v) (hc : t.cfg = s.cfg) :
    effect (.addReg x y) t = { t with v := (effect (.addReg x y) s).v } := by
  have hr (r : Reg) : readV t r = readV s r := congrArg (·.get r) hv
  by_cases h : s.cfg.addSetsCarry = true
  · rw [effect_addReg_of_carry h, effect_addReg_of_carry (hc ▸ h), hr, hr]
    simp only [writeFlagged, writeV, hv]
  · rw [effect_addReg_of_no_carry h, effect_addReg_of_no_carry (hc ▸ h), hr, hr]
    simp only [writeV, hv]

theorem effect_addReg_field {α : Type} (f : State → α) (x y : Reg) (s : State)
    (hf : ∀ v, f { s with v := v } = f s) : f (effect (.addReg x y) s) = f s := by
  rw [effect_addReg_eq_update_v x y rfl rfl]
  exact hf _

theorem effect_q (i : Instr) (s : State) : (effect i s).q = s.q := by
  cases i with
  | seByte x u | sneByte x u | seReg x y | sneReg x y => exact skipIf_q _ s
  | addReg x y => exact effect_addReg_field State.q x y s fun _ => rfl
  | ldMemVx x | ldVxMem x => exact bumpIndex_q x _
  | _ => rfl

theorem effect_cfg (i : Instr) (s : State) : (effect i s).cfg = s.cfg := by
  cases i with
  | seByte x u | sneByte x u | seReg x y | sneReg x y => exact skipIf_cfg _ s
  | addReg x y => exact effect_addReg_field State.cfg x y s fun _ => rfl
  | ldMemVx x | ldVxMem x => exact bumpIndex_cfg x _
  | _ => rfl

/-! ### The writers of each other field -/

/-- The index moves only with `Q.loadstore` off (R155, R156). -/
theorem quirk_off_of_bumpIndex_i {x : Reg} {s t : State} (h : (bumpIndex x t).i ≠ s.i)
    (hi : t.i = s.i) (hq : t.q = s.q) : s.q.getLsbD 1 = false := by
  by_contra hon
  rw [Bool.not_eq_false, ← hq] at hon
  exact h (by rw [bumpIndex_i, quirkLoadstore, if_pos hon, hi])

theorem writers_of_i {i : Instr} {s : State} (h : (effect i s).i ≠ s.i) :
    (∃ a, i = .ldI a) ∨ (∃ x, i = .addI x) ∨ (∃ x, i = .ldF x) ∨
      (s.q.getLsbD 1 = false ∧ ∃ x, i = .ldMemVx x ∨ i = .ldVxMem x) := by
  cases i with
  | ldI a => exact .inl ⟨a, rfl⟩
  | addI x => exact .inr (.inl ⟨x, rfl⟩)
  | ldF x => exact .inr (.inr (.inl ⟨x, rfl⟩))
  | ldMemVx x => exact .inr (.inr (.inr ⟨quirk_off_of_bumpIndex_i h rfl rfl, x, .inl rfl⟩))
  | ldVxMem x => exact .inr (.inr (.inr ⟨quirk_off_of_bumpIndex_i h rfl rfl, x, .inr rfl⟩))
  | seByte x u | sneByte x u | seReg x y | sneReg x y => exact absurd (skipIf_i _ s) h
  | addReg x y => exact absurd (effect_addReg_field State.i x y s fun _ => rfl) h
  | _ => exact absurd rfl h

theorem writers_of_disp {i : Instr} {s : State} (h : (effect i s).disp ≠ s.disp) :
    i = .cls ∨ ∃ x y n, i = .drw x y n := by
  cases i with
  | cls => exact .inl rfl
  | drw x y n => exact .inr ⟨x, y, n, rfl⟩
  | seByte x u | sneByte x u | seReg x y | sneReg x y => exact absurd (skipIf_disp _ s) h
  | addReg x y => exact absurd (effect_addReg_field State.disp x y s fun _ => rfl) h
  | ldMemVx x | ldVxMem x => exact absurd (bumpIndex_disp x _) h
  | _ => exact absurd rfl h

/-- CALL pushes and RET pops; on an empty stack there is nothing to pop. -/
theorem writers_of_stack {i : Instr} {s : State} (h : (effect i s).stack ≠ s.stack) :
    (∃ a, i = .call a ∧ (effect i s).stack = s.stack ++ [s.pc]) ∨
      (i = .ret ∧ ∃ a, s.stack = (effect i s).stack ++ [a]) := by
  cases i with
  | call a => exact .inl ⟨a, rfl, rfl⟩
  | ret =>
    rcases List.eq_nil_or_concat s.stack with hs | ⟨l, a, hs⟩
    · exact absurd (show s.stack.dropLast = s.stack by rw [hs]; rfl) h
    · exact .inr ⟨rfl, a, by simp [effect, hs]⟩
  | seByte x u | sneByte x u | seReg x y | sneReg x y => exact absurd (skipIf_stack _ s) h
  | addReg x y => exact absurd (effect_addReg_field State.stack x y s fun _ => rfl) h
  | ldMemVx x | ldVxMem x => exact absurd (bumpIndex_stack x _) h
  | _ => exact absurd rfl h

theorem writers_of_mem {i : Instr} {s : State} (h : (effect i s).mem ≠ s.mem) :
    ∃ x, i = .ldB x ∨ i = .ldMemVx x := by
  cases i with
  | ldB x => exact ⟨x, .inl rfl⟩
  | ldMemVx x => exact ⟨x, .inr rfl⟩
  | ldVxMem x => exact absurd (bumpIndex_mem x _) h
  | seByte x u | sneByte x u | seReg x y | sneReg x y => exact absurd (skipIf_mem _ s) h
  | addReg x y => exact absurd (effect_addReg_field State.mem x y s fun _ => rfl) h
  | _ => exact absurd rfl h

theorem writers_of_timers {i : Instr} {s : State}
    (h : ((effect i s).dt, (effect i s).st) ≠ (s.dt, s.st)) :
    ∃ x, i = .ldDtVx x ∨ i = .ldStVx x := by
  cases i with
  | ldDtVx x => exact ⟨x, .inl rfl⟩
  | ldStVx x => exact ⟨x, .inr rfl⟩
  | seByte x u | sneByte x u | seReg x y | sneReg x y =>
    exact absurd (congrArg₂ Prod.mk (skipIf_dt _ s) (skipIf_st _ s)) h
  | addReg x y =>
    exact absurd (effect_addReg_field (fun s => (s.dt, s.st)) x y s fun _ => rfl) h
  | ldMemVx x | ldVxMem x =>
    exact absurd (congrArg₂ Prod.mk (bumpIndex_dt x _) (bumpIndex_st x _)) h
  | _ => exact absurd rfl h

/-! ### The obligations about the writers -/

/-- Settles O43: the default PC advance leaves I alone, and the effects write it as named. -/
theorem writersOfIndex : Obligations.WritersOfIndex := by
  intro s t h hne
  obtain ⟨w, i, hw, hi, -, rfl⟩ := effect_of_step_changes State.i rfl h hne
  exact ⟨w, i, hw, hi, writers_of_i (s := advancePc s) hne⟩

/-- Settles O44: the effects that write the display are those of 00E0 and DXYN. -/
theorem writersOfDisplay : Obligations.WritersOfDisplay := by
  intro s t h hne
  obtain ⟨w, i, hw, hi, -, rfl⟩ := effect_of_step_changes State.disp rfl h hne
  exact ⟨w, i, hw, hi, writers_of_disp (s := advancePc s) hne⟩

/-- Settles O45: while CALL executes, the pc it pushes reads as `pc0 + 2` (R76). -/
theorem writersOfCallStack : Obligations.WritersOfCallStack := by
  intro s t h hne
  obtain ⟨w, i, hw, hi, -, rfl⟩ := effect_of_step_changes State.stack rfl h hne
  rcases writers_of_stack (s := advancePc s) hne with ⟨a, rfl, hpush⟩ | ⟨rfl, hpop⟩
  · exact ⟨w, hw, .inl ⟨a, hi, hpush⟩⟩
  · exact ⟨w, hw, .inr ⟨hi, hpop⟩⟩

/-- FX33 with its check passed writes inside I to I + 2. -/
theorem range_of_ldB {s : State} {x : Reg} {a : Nat} (hm : Memory.wf s.mem)
    (hok : instrError (.ldB x) s = none)
    (h : Memory.read (effect (.ldB x) s).mem a ≠ Memory.read s.mem a) :
    s.i.toNat ≤ a ∧ a ≤ s.i.toNat + 2 := by
  rw [instrError_ldB, boundsError_eq_none] at hok
  simp only [memSize] at hok
  by_contra hr
  exact h (by rw [read_ldB hm (by omega), dif_neg (by omega)])

/-- FX55 with its check passed writes inside I to I + X. -/
theorem range_of_ldMemVx {s : State} {x : Reg} {a : Nat} (hm : Memory.wf s.mem)
    (hok : instrError (.ldMemVx x) s = none)
    (h : Memory.read (effect (.ldMemVx x) s).mem a ≠ Memory.read s.mem a) :
    s.i.toNat ≤ a ∧ a ≤ s.i.toNat + x.val := by
  rw [instrError_ldMemVx, boundsError_eq_none] at hok
  simp only [memSize] at hok
  by_contra hr
  exact h (by rw [read_ldMemVx hm (by omega), dif_neg (by rw [length_regsThrough]; omega)])

/-- Settles O46: the check, passed, keeps the writes of FX33 and FX55 inside their ranges. -/
theorem writersOfMemory : Obligations.WritersOfMemory := by
  intro s t hm h a hne
  obtain ⟨w, i, hw, hi, hok, rfl⟩ :=
    effect_of_step_changes (fun s => Memory.read s.mem a) rfl h hne
  obtain ⟨x, rfl | rfl⟩ := writers_of_mem (s := advancePc s)
    fun hmem => hne (congrArg (Memory.read · a) hmem)
  · exact ⟨w, x, hw, .inl ⟨hi, range_of_ldB (s := advancePc s) hm hok hne⟩⟩
  · exact ⟨w, x, hw, .inr ⟨hi, range_of_ldMemVx (s := advancePc s) hm hok hne⟩⟩

/-- Settles O47: the effect of FX15 and FX18 is one write of their timer. -/
theorem writersOfTimers : Obligations.WritersOfTimers := by
  intro s t h hne
  have hpair : (t.dt, t.st) ≠ (s.dt, s.st) := fun he =>
    hne.elim (· (congrArg Prod.fst he)) (· (congrArg Prod.snd he))
  obtain ⟨w, i, hw, hi, -, rfl⟩ := effect_of_step_changes (fun s => (s.dt, s.st)) rfl h hpair
  obtain ⟨x, rfl | rfl⟩ := writers_of_timers (s := advancePc s) hpair
  · exact ⟨w, x, hw, .inl ⟨hi, rfl⟩⟩
  · exact ⟨w, x, hw, .inr ⟨hi, rfl⟩⟩

/-! ### The writers of VF (R22, R23) -/

theorem eq_VF_of_writeV {s : State} {x : Reg} {u : Byte}
    (h : readV (writeV s x u) VF ≠ readV s VF) : x = VF := by
  by_contra hx
  exact h (by rw [readV_writeV, if_neg (Ne.symm hx)])

/-- FX65 reaches VF only with X = 15. -/
theorem eq_VF_of_ldVxMem {s : State} {x : Reg}
    (h : readV (effect (.ldVxMem x) s) VF ≠ readV s VF) : x = VF := by
  by_contra hx
  have hlt : ¬ VF.val ≤ x.val := fun hle =>
    hx (Fin.ext (Nat.le_antisymm (Nat.le_of_lt_succ x.isLt) hle))
  exact h (by rw [readV_ldVxMem, if_neg hlt])

/-- Settles O48: an instruction that writes one register changes VF only where that register is VF. -/
theorem writersOfFlag : Obligations.WritersOfFlag := by
  intro s t h hne
  obtain ⟨w, i, hw, hi, -, rfl⟩ := effect_of_step_changes (readV · VF) rfl h hne
  refine ⟨w, i, hw, hi, ?_⟩
  replace hne : readV (effect i (advancePc s)) VF ≠ readV (advancePc s) VF := hne
  cases i with
  | ldByte x u | addByte x u | rnd x u =>
    obtain rfl := eq_VF_of_writeV hne
    exact .inl ⟨u, by simp⟩
  | ldReg x y | orReg x y | andReg x y | xorReg x y =>
    obtain rfl := eq_VF_of_writeV hne
    exact .inr (.inl ⟨y, by simp⟩)
  | addReg x y =>
    by_cases hc : s.cfg.addSetsCarry = true
    · exact .inr (.inr (.inr (.inl ⟨hc, x, y, rfl⟩)))
    · rw [effect_addReg_of_no_carry (s := advancePc s) hc] at hne
      obtain rfl := eq_VF_of_writeV hne
      exact .inr (.inl ⟨y, by simp⟩)
  | subReg x y | shrReg x y | subnReg x y | shlReg x y =>
    exact .inr (.inr (.inl ⟨x, y, by simp⟩))
  | drw x y n => exact .inr (.inr (.inr (.inr (.inl ⟨x, y, n, rfl⟩))))
  | ldVxDt x =>
    obtain rfl := eq_VF_of_writeV hne
    exact .inr (.inr (.inr (.inr (.inr (.inl rfl)))))
  | ldVxMem x =>
    obtain rfl := eq_VF_of_ldVxMem hne
    exact .inr (.inr (.inr (.inr (.inr (.inr rfl)))))
  | seByte x u | sneByte x u | seReg x y | sneReg x y =>
    exact absurd (congrArg (·.get VF) (skipIf_v _ (advancePc s))) hne
  | ldMemVx x => exact absurd (readV_bumpIndex x _ VF) hne
  | _ => exact absurd rfl hne

/-! ### Q and the static parameters (R20, R32) -/

theorem step_q_cfg {s t : State} (h : step s = .next t) : t.q = s.q ∧ t.cfg = s.cfg := by
  by_contra hne
  have hpair : (t.q, t.cfg) ≠ (s.q, s.cfg) := fun he =>
    hne ⟨congrArg Prod.fst he, congrArg Prod.snd he⟩
  obtain ⟨w, i, -, -, -, rfl⟩ := effect_of_step_changes (fun s => (s.q, s.cfg)) rfl h hpair
  exact hne ⟨effect_q i (advancePc s), effect_cfg i (advancePc s)⟩

/-- LOAD_PROGRAM either writes its bytes or nothing (R246, R247). -/
theorem settle_loadProgram (bytes : List Byte) (s : State) :
    settle s (loadProgram bytes s) =
      .next (if memSize < programBase.toNat + bytes.length then s
        else setMem s (Memory.writeBytes s.mem programBase.toNat bytes)) := by
  unfold loadProgram
  split
  · rfl
  · rfl

/-- LOAD_PROGRAM writes only memory, and only by its bytes. -/
theorem transact_loadProgram_cases {bytes : List Byte} {s t : State} {a : Response}
    (h : transact (.loadProgram bytes) s = .next (t, a)) :
    t = s ∨ t = setMem s (Memory.writeBytes s.mem programBase.toNat bytes) := by
  rw [transact, settle_loadProgram] at h
  obtain ⟨rfl, -⟩ := answer_next h
  split
  · exact .inl rfl
  · exact .inr rfl

theorem transact_advance_cases {s t : State} {a : Response}
    (h : transact .advance s = .next (t, a)) : step s = .next t := by
  obtain ⟨u, hu⟩ := stepAlwaysAnswersNext s
  rw [transact_advance hu, Host.Outcome.next.injEq, Prod.mk.injEq] at h
  rw [hu, h.1]

/-- Settles O49: an ADVANCE is a step, and each other transaction writes what it names. -/
theorem quirksAndParametersStay : Obligations.QuirksAndParametersStay := by
  refine ⟨fun s t h => step_q_cfg h, fun r s t a h => ?_⟩
  cases r with
  | advance =>
    obtain ⟨hq, hcfg⟩ := step_q_cfg (transact_advance_cases h)
    exact ⟨hcfg, fun hne => absurd hq hne⟩
  | loadProgram bytes =>
    rcases transact_loadProgram_cases h with rfl | rfl
    · exact ⟨rfl, fun hne => absurd rfl hne⟩
    · exact ⟨rfl, fun hne => absurd rfl hne⟩
  | reset =>
    obtain ⟨rfl, -⟩ := answer_next h
    exact ⟨rfl, fun _ => .inl rfl⟩
  | setQuirks q =>
    obtain ⟨rfl, -⟩ := answer_next h
    exact ⟨rfl, fun _ => .inr rfl⟩
  | timerWrite timer u =>
    obtain ⟨rfl, -⟩ := answer_next h
    cases timer with
    | dt => exact ⟨rfl, fun hne => absurd rfl hne⟩
    | st => exact ⟨rfl, fun hne => absurd rfl hne⟩
  | loadFont | timerRead timer | readDisplay | inspect item =>
    obtain ⟨rfl, -⟩ := answer_next h
    exact ⟨rfl, fun hne => absurd rfl hne⟩

/-! ### What ST and Q are read by (R31, R32) -/

/-- No check reads ST or Q. -/
theorem instrError_update_st_q (i : Instr) (s : State) (u : Byte) (q : BitVec 3) :
    instrError i { s with st := u, q := q } = instrError i s := by
  cases i with
  | ret => rw [instrError_ret, instrError_ret]; rfl
  | call a => rw [instrError_call, instrError_call]; rfl
  | drw x y n => rw [instrError_drw, instrError_drw]; rfl
  | ldB x => rw [instrError_ldB, instrError_ldB]
  | ldMemVx x => rw [instrError_ldMemVx, instrError_ldMemVx]
  | ldVxMem x => rw [instrError_ldVxMem, instrError_ldVxMem]
  | _ => rfl

theorem skipIf_setSt (c : Bool) (s : State) (u : Byte) :
    skipIf c (setSt s u) = setSt (skipIf c s) u := by
  rw [skipIf_eq_update_pc, skipIf_eq_update_pc]
  rfl

theorem skipIf_setQ (c : Bool) (s : State) (q : BitVec 3) :
    skipIf c (setQ s q) = setQ (skipIf c s) q := by
  rw [skipIf_eq_update_pc, skipIf_eq_update_pc]
  rfl

theorem bumpIndex_setSt (x : Reg) (s : State) (u : Byte) :
    bumpIndex x (setSt s u) = setSt (bumpIndex x s) u := by
  rw [bumpIndex_eq_update_i, bumpIndex_eq_update_i x s, bumpIndex_i, bumpIndex_i]
  rfl

/-- What ST holds does not change an effect outside ST. -/
theorem effect_setSt (i : Instr) (s : State) (u : Byte) :
    ∃ u', effect i (setSt s u) = setSt (effect i s) u' := by
  cases i with
  | ldStVx x => exact ⟨readV s x, rfl⟩
  | seByte x v | sneByte x v | seReg x y | sneReg x y => exact ⟨u, skipIf_setSt _ s u⟩
  | addReg x y =>
    have hs := effect_addReg_eq_update_v x y (s := s) (t := s) rfl rfl
    have ht := effect_addReg_eq_update_v x y (s := s) (t := setSt s u) rfl rfl
    exact ⟨u, ht.trans (congrArg (setSt · u) hs.symm)⟩
  | ldMemVx x => exact ⟨u, bumpIndex_setSt x (setMem s _) u⟩
  | ldVxMem x => exact ⟨u, bumpIndex_setSt x (setV s _) u⟩
  | _ => exact ⟨u, rfl⟩

theorem exec_setSt {i : Instr} {s t : State} (h : exec i s = .next t) (u : Byte) :
    ∃ u', exec i (setSt s u) = .next (setSt t u') := by
  have hcheck : instrError i (setSt s u) = instrError i s := instrError_update_st_q i s u s.q
  obtain ⟨u', heffect⟩ := effect_setSt i s u
  rw [exec_eq, Host.Outcome.next.injEq] at h
  rw [exec_eq, hcheck, heffect]
  split at h
  · exact ⟨u', by rw [if_pos ‹_›, h]⟩
  · exact ⟨u, by rw [if_neg ‹_›, h]⟩

/-- Settles O50: the fetch, the check and the effect are those of the other state. -/
theorem soundTimerIsNeverRead : Obligations.SoundTimerIsNeverRead := by
  intro s t u h
  have hfetch : fetch (setSt s u) = fetch s := rfl
  rcases hf : fetch s with e | w
  · have hf' := hfetch.trans hf
    rw [step_of_fetch_error hf, Host.Outcome.next.injEq] at h
    subst h
    exact ⟨setSt s u, step_of_fetch_error hf', rfl,
      (advanceError_of_fetch_error hf').trans (advanceError_of_fetch_error hf).symm⟩
  · have hf' := hfetch.trans hf
    rcases hd : decode w with e | i
    · rw [step_of_unknown hf hd, Host.Outcome.next.injEq] at h
      subst h
      exact ⟨setSt (advancePc s) u, step_of_unknown hf' hd, rfl,
        (advanceError_of_unknown hf' hd).trans (advanceError_of_unknown hf hd).symm⟩
    · rw [step_of_decode hf hd] at h
      obtain ⟨u', ht⟩ := exec_setSt h u
      refine ⟨setSt t u', (step_of_decode hf' hd).trans ht, rfl, ?_⟩
      exact (advanceError_of_decode hf' hd).trans
        ((instrError_update_st_q i (advancePc s) u s.q).trans (advanceError_of_decode hf hd).symm)

/-- What Q holds does not change the effect of an instruction that no quirk alters, outside Q. -/
theorem effect_setQ {i : Instr} (hshift : ∀ x y, i ≠ .shrReg x y ∧ i ≠ .shlReg x y)
    (htransfer : ∀ x, i ≠ .ldMemVx x ∧ i ≠ .ldVxMem x) (hjump : ∀ a, i ≠ .jpV0 a) (s : State)
    (q : BitVec 3) : effect i (setQ s q) = setQ (effect i s) q := by
  cases i with
  | shrReg x y => exact absurd rfl (hshift x y).1
  | shlReg x y => exact absurd rfl (hshift x y).2
  | ldMemVx x => exact absurd rfl (htransfer x).1
  | ldVxMem x => exact absurd rfl (htransfer x).2
  | jpV0 a => exact absurd rfl (hjump a)
  | seByte x v | sneByte x v | seReg x y | sneReg x y => exact skipIf_setQ _ s q
  | addReg x y =>
    have hs := effect_addReg_eq_update_v x y (s := s) (t := s) rfl rfl
    have ht := effect_addReg_eq_update_v x y (s := s) (t := setQ s q) rfl rfl
    exact ht.trans (congrArg (setQ · q) hs.symm)
  | _ => rfl

/-- Settles O51: no check reads Q, and no effect but those of the five does. -/
theorem quirksAlterOnlyTheirInstructions : Obligations.QuirksAlterOnlyTheirInstructions := by
  have hcheck (s : State) (q : BitVec 3) (i : Instr) : instrError i (setQ s q) = instrError i s :=
    instrError_update_st_q i s s.st q
  refine ⟨fun s t q i h hshift htransfer hjump => ?_, hcheck⟩
  rw [exec_eq, Host.Outcome.next.injEq] at h
  change exec i (setQ s q) = .next (setQ t q)
  rw [exec_eq, hcheck, effect_setQ hshift htransfer hjump, ← h]
  split
  · rfl
  · rfl

end Sys2Proof.Machine
end

section
/-! SUPPORT. The proofs about the two invariants (spec/10_state.md) and the canonical memory. -/

namespace Sys2Proof.Machine

/-! ### Memory in canonical form -/

theorem Memory.wf_tail {c : Host.Cell} {m : Memory} (h : Memory.wf (c :: m)) : Memory.wf m :=
  ⟨(List.pairwise_cons.1 h.1).2, fun d hd => h.2 d (List.mem_cons_of_mem c hd)⟩

/-- Every listed address after the first is above it. -/
theorem Memory.lt_of_wf_cons {c : Host.Cell} {m : Memory} (h : Memory.wf (c :: m)) :
    ∀ d ∈ m, c.1 < d.1 := (List.pairwise_cons.1 h.1).1

/-- A listed byte is not 0. -/
theorem Memory.ne_zero_of_wf_cons {c : Host.Cell} {m : Memory} (h : Memory.wf (c :: m)) : c.2 ≠ 0 :=
  (h.2 c List.mem_cons_self).2

theorem Memory.read_cons_self (a : Nat) (u : Byte) (m : Memory) :
    Memory.read ((a, u) :: m) a = u := if_pos rfl

theorem Memory.read_cons_ne {a b : Nat} (u : Byte) (m : Memory) (h : b ≠ a) :
    Memory.read ((a, u) :: m) b = Memory.read m b := if_neg h

/-- Two canonical memories that read the same start at the same address: the lower of two first
addresses would read 0 in the other memory. -/
theorem Memory.head_le_of_read_eq {a b : Nat} {u v : Byte} {m m' : Memory}
    (hm : Memory.wf ((a, u) :: m)) (hm' : Memory.wf ((b, v) :: m'))
    (h : ∀ k, Memory.read ((a, u) :: m) k = Memory.read ((b, v) :: m') k) : b ≤ a := by
  by_contra hlt
  have hzero : Memory.read ((b, v) :: m') a = 0 := Memory.read_of_lt (List.forall_mem_cons.2
    ⟨by omega, fun d hd => by have := Memory.lt_of_wf_cons hm' d hd; simp only at this; omega⟩)
  rw [← h, Memory.read_cons_self] at hzero
  exact Memory.ne_zero_of_wf_cons hm hzero

/-- Settles O55, by induction along both lists: their first entries agree, and so do the reads of what
is left. -/
theorem canonicalMemoryIsUnique : Obligations.CanonicalMemoryIsUnique := by
  intro m m' hm hm' h
  induction m generalizing m' with
  | nil =>
    cases m' with
    | nil => rfl
    | cons c m' =>
      have hzero := h c.1
      rw [Memory.read_cons_self, Memory.read_nil] at hzero
      exact absurd hzero.symm (Memory.ne_zero_of_wf_cons hm')
  | cons c m ih =>
    cases m' with
    | nil =>
      have hzero := h c.1
      rw [Memory.read_cons_self, Memory.read_nil] at hzero
      exact absurd hzero (Memory.ne_zero_of_wf_cons hm)
    | cons d m' =>
      obtain ⟨a, u⟩ := c
      obtain ⟨b, v⟩ := d
      obtain rfl : a = b := Nat.le_antisymm (Memory.head_le_of_read_eq hm' hm fun k => (h k).symm)
        (Memory.head_le_of_read_eq hm hm' h)
      have huv := h a
      rw [Memory.read_cons_self, Memory.read_cons_self] at huv
      rw [huv, ih m' (Memory.wf_tail hm) (Memory.wf_tail hm') fun k => ?_]
      by_cases hk : k = a
      · rw [hk, Memory.read_of_lt (Memory.lt_of_wf_cons hm), Memory.read_of_lt (Memory.lt_of_wf_cons hm')]
      · have := h k
        rwa [Memory.read_cons_ne u m hk, Memory.read_cons_ne v m' hk] at this

/-! ### Legal (R20, R29) -/

theorem wf_mem_effect (i : Instr) {s : State} (hm : Memory.wf s.mem) :
    Memory.wf (effect i s).mem := by
  by_cases h : (effect i s).mem = s.mem
  · rw [h]
    exact hm
  · obtain ⟨x, rfl | rfl⟩ := writers_of_mem h
    · exact Memory.wf_writeBytes _ _ hm
    · rw [effect, bumpIndex_mem]
      exact Memory.wf_writeBytes _ _ hm

/-- A push passes its check only below STACK_DEPTH. -/
theorem length_stack_effect_le {i : Instr} {s : State} (hok : instrError i s = none)
    (hs : s.stack.length ≤ s.cfg.stackDepth) : (effect i s).stack.length ≤ s.cfg.stackDepth := by
  by_cases h : (effect i s).stack = s.stack
  · rw [h]
    exact hs
  · rcases writers_of_stack h with ⟨a, rfl, hpush⟩ | ⟨rfl, a, hpop⟩
    · have hne : s.stack.length ≠ s.cfg.stackDepth := by simpa using hok
      rw [hpush, List.length_append, List.length_singleton]
      omega
    · rw [hpop, List.length_append] at hs
      omega

theorem legal_effect {i : Instr} {s : State} (hok : instrError i s = none) (hs : s.Legal) :
    (effect i s).Legal := by
  obtain ⟨hm, hlen⟩ := hs
  exact ⟨wf_mem_effect i hm, by rw [effect_cfg]; exact length_stack_effect_le hok hlen⟩

/-- Settles O52: the default PC advance touches neither memory nor stack, and the effects keep both. -/
theorem stepKeepsLegal : Obligations.StepKeepsLegal := by
  intro s t hs h
  rcases step_outcomes h with rfl | ⟨-, rfl⟩ | ⟨w, i, -, -, hok, rfl⟩
  · exact hs
  · exact hs
  · exact legal_effect hok hs

/-! ### The bounds of pc and of the return addresses (R27) -/

/-- Behind a fetch, `pc0 + 2` and `pc0 + 4` do not wrap. -/
theorem toNat_pc_add_two {s : State} (hpc : s.pc.toNat < 4095) :
    (s.pc + 2).toNat = s.pc.toNat + 2 :=
  BitVec.toNat_add_of_lt (show s.pc.toNat + 2 < 65536 by omega)

theorem toNat_pc_add_four {s : State} (hpc : s.pc.toNat < 4095) :
    (s.pc + 4).toNat = s.pc.toNat + 4 :=
  BitVec.toNat_add_of_lt (show s.pc.toNat + 4 < 65536 by omega)

/-- R27's bound on pc, behind each kind of instruction. -/
theorem toNat_nextPc_le {i : Instr} {s : State} (hwf : i.wellFormed = true)
    (hpc : s.pc.toNat < 4095) (hst : ∀ a ∈ s.stack, a.toNat ≤ 4096) :
    (nextPc i s).toNat ≤ 0x10FE := by
  have h2 := toNat_pc_add_two hpc
  have h4 := toNat_pc_add_four hpc
  cases i with
  | jp a | call a =>
    have : a.toNat < 4096 := of_decide_eq_true hwf
    simp only [nextPc]
    omega
  | jpV0 a =>
    have ha : a.toNat < 4096 := of_decide_eq_true hwf
    simp only [nextPc, toNat_address_add_byte ha]
    have := (if s.q.getLsbD 2 then readV s (fieldX a) else readV s 0).isLt
    omega
  | ret =>
    rcases List.eq_nil_or_concat s.stack with hs | ⟨l, a, hs⟩
    · simp only [nextPc, hs, List.getLast?_nil, Option.getD_none]
      omega
    · have := hst a (by simp [hs])
      simp only [nextPc, hs, List.concat_eq_append, List.getLast?_concat, Option.getD_some]
      omega
  | seByte x u | sneByte x u | seReg x y | sneReg x y =>
    simp only [nextPc]
    split
    · omega
    · omega
  | _ => exact Nat.le_trans (Nat.le_of_eq h2) (by omega)

/-- A return address is pushed behind a fetch, so it is at most 4096 (R27). -/
theorem stack_effect_le {i : Instr} {s : State} (hpc : s.pc.toNat ≤ 4096)
    (hst : ∀ a ∈ s.stack, a.toNat ≤ 4096) : ∀ a ∈ (effect i s).stack, a.toNat ≤ 4096 := by
  by_cases h : (effect i s).stack = s.stack
  · rw [h]
    exact hst
  · rcases writers_of_stack h with ⟨-, -, hpush⟩ | ⟨-, b, hpop⟩
    · rw [hpush]
      exact List.forall_mem_append.2 ⟨hst, List.forall_mem_singleton.2 hpc⟩
    · exact fun a ha => hst a (hpop ▸ List.mem_append_left [b] ha)

/-- Settles O53: only an ADVANCE whose fetch succeeds moves pc, from below 4095. -/
theorem stepKeepsPcBounded : Obligations.StepKeepsPcBounded := by
  intro s t hs h
  obtain ⟨hpc, hst⟩ := hs
  rcases step_outcomes h with rfl | ⟨hlt, rfl⟩ | ⟨w, i, hw, hi, -, rfl⟩
  · exact ⟨hpc, hst⟩
  · exact ⟨by rw [advancePc_pc, toNat_pc_add_two hlt]; omega, hst⟩
  · have hlt := (fetch_ok_cases hw).1
    have hadv : (advancePc s).pc.toNat ≤ 4096 := by
      rw [advancePc_pc, toNat_pc_add_two hlt]
      omega
    refine ⟨?_, stack_effect_le hadv hst⟩
    rw [effect_advancePc_pc]
    exact toNat_nextPc_le (wellFormed_of_decode hi) hlt hst

/-! ### Sequences of transactions (R220, R221) -/

/-- Both invariants. -/
abbrev State.Good (s : State) : Prop := s.Legal ∧ s.PcBounded

theorem resetWith_good (cfg : Config) (draws : Nat) : (State.resetWith cfg draws).Good :=
  ⟨⟨⟨List.Pairwise.nil, List.forall_mem_nil _⟩, Nat.zero_le _⟩,
    (by decide : (programBase).toNat ≤ 0x10FE), List.forall_mem_nil _⟩

/-- Settles O2: an empty memory and call stack, and pc at the entry point. -/
theorem resetMeetsInvariants : Obligations.ResetMeetsInvariants := resetWith_good Config.default 0

/-- The invariants say nothing of memory but that it is canonical. -/
theorem good_setMem {s : State} (h : s.Good) (a : Nat) (us : List Byte) :
    (setMem s (Memory.writeBytes s.mem a us)).Good := by
  obtain ⟨⟨hm, hlen⟩, hpc⟩ := h
  exact ⟨⟨Memory.wf_writeBytes a us hm, hlen⟩, hpc⟩

/-- Every transaction is answered, and keeps both invariants. -/
theorem transact_keeps_good (r : Request) {s : State} (h : s.Good) :
    ∃ t a, transact r s = .next (t, a) ∧ t.Good := by
  cases r with
  | advance =>
    obtain ⟨t, ht⟩ := stepAlwaysAnswersNext s
    exact ⟨t, _, transact_advance ht, stepKeepsLegal s t h.1 ht, stepKeepsPcBounded s t h.2 ht⟩
  | reset => exact ⟨_, _, rfl, resetWith_good s.cfg s.draws⟩
  | loadFont => exact ⟨_, _, rfl, good_setMem h _ _⟩
  | loadProgram bytes =>
    refine ⟨_, _, by rw [transact, settle_loadProgram]; rfl, ?_⟩
    split
    · exact h
    · exact good_setMem h _ _
  | timerWrite timer u =>
    refine ⟨_, _, rfl, ?_⟩
    cases timer with
    | dt => exact h
    | st => exact h
  | setQuirks q => exact ⟨_, _, rfl, h⟩
  | timerRead timer | readDisplay | inspect item => exact ⟨_, _, rfl, h⟩

/-- Settles O54, by induction on the list of transactions. -/
theorem hostRunKeepsInvariants : Obligations.HostRunKeepsInvariants := by
  intro rs s hlegal hpc
  induction rs generalizing s with
  | nil => exact ⟨s, [], rfl, rfl, hlegal, hpc⟩
  | cons r rs ih =>
    obtain ⟨t, a, hr, htl, htp⟩ := transact_keeps_good r ⟨hlegal, hpc⟩
    obtain ⟨u, as, hrs, hlen, hul, hup⟩ := ih t htl htp
    exact ⟨u, a :: as, runHost_cons hr hrs, by rw [List.length_cons, hlen, List.length_cons], hul, hup⟩

end Sys2Proof.Machine
end

section
/-! SUPPORT. The proofs about the host's transactions (spec/60_exceptions.md,
spec/70_reset_and_hazards.md). -/

namespace Sys2Proof.Machine

theorem resetWith_hasResetValues (cfg : Config) (draws : Nat) :
    (State.resetWith cfg draws).HasResetValues where
  v x := Vector.getElem_replicate x.isLt
  pc := rfl
  i := rfl
  stack := rfl
  mem _ := rfl
  disp k := Vector.getElem_replicate k.isLt
  dt := rfl
  st := rfl
  q := rfl

/-- Settles O1: RESET and the first state are `resetWith` of their parameters. -/
theorem resetGivesEveryResetValue : Obligations.ResetGivesEveryResetValue :=
  ⟨resetWith_hasResetValues Config.default 0, ⟨rfl, rfl, rfl, rfl⟩,
    fun s => ⟨resetCore s, rfl, resetWith_hasResetValues s.cfg s.draws, rfl⟩⟩

/-! ### LOAD_FONT (R243) -/

/-- What memory reads after LOAD_FONT: its 80 bytes fit, by the range of FONT_BASE. -/
theorem read_loadFont {s : State} (hm : Memory.wf s.mem) (a : Nat) :
    Memory.read (loadFont s).mem a =
      if h : s.cfg.fontBase.val ≤ a ∧ a - s.cfg.fontBase.val < s.cfg.fontGlyphs.toList.length then
        s.cfg.fontGlyphs.toList[a - s.cfg.fontBase.val]'h.2
      else Memory.read s.mem a :=
  Memory.read_writeBytes _ _ _ hm (by
    have := s.cfg.fontBase.isLt
    simp only [Vector.length_toList, memSize]
    omega)

theorem wf_loadFont {s : State} (hm : Memory.wf s.mem) : Memory.wf (loadFont s).mem :=
  Memory.wf_writeBytes _ _ hm

/-- The second LOAD_FONT writes the bytes that are there. -/
theorem read_loadFont_loadFont {s : State} (hm : Memory.wf s.mem) (a : Nat) :
    Memory.read (loadFont (loadFont s)).mem a = Memory.read (loadFont s).mem a := by
  have hagain := read_loadFont (wf_loadFont hm) a
  by_cases h : s.cfg.fontBase.val ≤ a ∧ a - s.cfg.fontBase.val < s.cfg.fontGlyphs.toList.length
  · exact (hagain.trans (dif_pos h)).trans ((read_loadFont hm a).trans (dif_pos h)).symm
  · exact hagain.trans (dif_neg h)

/-- Settles O56: the k-th byte from FONT_BASE is the k-th glyph byte, each time. -/
theorem loadFontCopiesGlyphs : Obligations.LoadFontCopiesGlyphs := by
  intro s hm
  have hlen : s.cfg.fontGlyphs.toList.length = 80 := Vector.length_toList
  refine ⟨loadFont s, rfl, rfl, fun k => ?_, fun a ha => ?_, loadFont (loadFont s), rfl,
    read_loadFont_loadFont hm⟩
  · have e : s.cfg.fontBase.val + k.val - s.cfg.fontBase.val = k.val := by omega
    rw [read_loadFont hm, dif_pos (by omega)]
    simp only [e]
    rfl
  · rw [read_loadFont hm, dif_neg (by omega)]

/-! ### LOAD_PROGRAM (R246, R247) -/

theorem loadProgram_of_fits {bytes : List Byte} (s : State) (h : bytes.length ≤ 3584) :
    loadProgram bytes s = .ok (setMem s (Memory.writeBytes s.mem 0x200 bytes)) :=
  if_neg (show ¬ 4096 < 0x200 + bytes.length by omega)

/-- A program that fits is written at PROGRAM_BASE, and the answer is OK. -/
theorem transact_loadProgram_of_fits {bytes : List Byte} (s : State) (h : bytes.length ≤ 3584) :
    transact (.loadProgram bytes) s =
      .next (setMem s (Memory.writeBytes s.mem 0x200 bytes), .status 0 0) := by
  simp only [transact, loadProgram_of_fits s h]
  rfl

/-- Settles O57: the size check decides between the copy and the refusal. -/
theorem loadProgramCopiesOrRefuses : Obligations.LoadProgramCopiesOrRefuses := by
  intro s bytes hm
  refine ⟨fun hlen => ⟨_, transact_loadProgram_of_fits s hlen, rfl, fun k hk => ?_, fun a ha => ?_⟩,
    fun hlen => transact_loadProgram_of_tooLarge s (by omega)⟩
  · have e : 0x200 + k - 0x200 = k := by omega
    rw [setMem_mem, Memory.read_writeBytes _ _ _ hm (by simp only [memSize]; omega), dif_pos (by omega)]
    simp only [e]
  · rw [setMem_mem, Memory.read_writeBytes _ _ _ hm (by simp only [memSize]; omega), dif_neg (by omega)]

/-! ### The other ports (R222, R223, R225, R226) -/

/-- Settles O58: each transaction answers with the state it names. -/
theorem hostPortsReadAndWrite : Obligations.HostPortsReadAndWrite := by
  intro s u q
  exact ⟨rfl, rfl, rfl, rfl, rfl, rfl, fun _ => rfl, fun _ => rfl, rfl, rfl, rfl, rfl, rfl, rfl⟩

end Sys2Proof.Machine
end
